-- ==== Sys2Proof/Word.lean ====
section
/-! DEFINITION. The word types of the FrameCodec. All values are unsigned (00_scope.md R9). -/

namespace Sys2Proof

/-- A payload or image byte, u8. -/
abbrev Byte := BitVec 8

/-- A u32: the command word, the operand ports, RES, ID, MARKER and USER. -/
abbrev Word := BitVec 32

/-- A wire image, `array[72] of u8` (10_state.md R32 and R33; `IMG_LEN` of 00_scope.md R8). -/
abbrev Image := Vector Byte 72

end Sys2Proof
end

