-- ==== Sys2Proof/Config.lean ====
section
/-! DEFINITION. The implementation parameters of 00_scope.md R8, and the one free value of the model. -/

namespace Sys2Proof

/-- `MASK_STD`, 11 bits (R8). -/
def Config.maskStd : Word := 0x000007FF

/-- `MASK_EXT`, 29 bits (R8). -/
def Config.maskExt : Word := 0x1FFFFFFF

/-- `DLC_MAX_CLASSIC` (R8). -/
def Config.dlcMaxClassic : Nat := 8

/-- `DLC_MAX_FD` (R8). -/
def Config.dlcMaxFd : Nat := 15

/-- `LEN_MAX_CLASSIC` in bytes (R8). -/
def Config.lenMaxClassic : Nat := 8

/-- `LEN_MAX_FD` in bytes (R8). -/
def Config.lenMaxFd : Nat := 64

/-- `PAYLOAD_STORE` in bytes per slot (R8). -/
def Config.payloadStore : Nat := 64

/-- `NSLOT` (R8). -/
def Config.nslot : Nat := 2

/-- `POS_WIDTH` in bits (R8). -/
def Config.posWidth : Nat := 8

/-- `WIRE_VERSION` (R8). -/
def Config.wireVersion : Byte := 0x01

/-- DESIGN CHOICE (log entry 6), safe. The length at a dash of the table of 43_length.md R160: a
classic DLC of 9..15, of which the spec says only that no slot holds it. A free value: nothing can
evaluate it; only the bound 0..64 of 10_state.md R29 is kept. -/
opaque Config.dashLength : BitVec 4 → Fin 65

end Sys2Proof
end

