-- ==== Sys2Proof/Syntax.lean ====
section
/-! DEFINITION. The commands of FCC-v1: one constructor per row of spec/opcode_table.json
(30_encoding.md R75), with the command-word operands that the command reads (R71). The operands that
travel on ARG0, ARG1 and IMG_IN are not in the command word; the meanings read them from the ports. -/

namespace Sys2Proof

/-- A frame slot, named as the assembler names it (10_state.md R20; 30_encoding.md R80). -/
inductive SlotId where
  | s0
  | s1
  deriving DecidableEq, Repr

/-- The four frame formats, all legal (10_state.md R21). Their codes are `Format.code`. -/
inductive Format where
  | canStd
  | canExt
  | fdStd
  | fdExt
  deriving DecidableEq, Repr

/-- The byte order of one multi-byte access, the `END` bit (20_memory.md R52). -/
inductive Endian where
  | little
  | big
  deriving DecidableEq, Repr

/-- The 30 commands. A position is a natural number, as R73 and 00_scope.md R9 use it; that it fits
the field is checked by `Instr.wellFormed`. -/
inductive Instr where
  | clear (sl : SlotId)
  | init (sl : SlotId) (f : Format)
  | getfmt (sl : SlotId)
  | setfmt (sl : SlotId) (f : Format)
  | getid (sl : SlotId)
  | setid (sl : SlotId)
  | getdlc (sl : SlotId)
  | setdlc (sl : SlotId)
  | getsize (sl : SlotId)
  | setsize (sl : SlotId)
  | getb (sl : SlotId) (pos : Nat)
  | setb (sl : SlotId) (pos : Nat)
  | geth (sl : SlotId) (pos : Nat) (e : Endian)
  | seth (sl : SlotId) (pos : Nat) (e : Endian)
  | getw (sl : SlotId) (pos : Nat) (e : Endian)
  | setw (sl : SlotId) (pos : Nat) (e : Endian)
  | getrtr (sl : SlotId)
  | setrtr (sl : SlotId) (v : Bool)
  | getbrs (sl : SlotId)
  | setbrs (sl : SlotId) (v : Bool)
  | getesi (sl : SlotId)
  | setesi (sl : SlotId) (v : Bool)
  | getfdf (sl : SlotId)
  | getmrk (sl : SlotId)
  | setmrk (sl : SlotId)
  | getusr (sl : SlotId)
  | setusr (sl : SlotId)
  | eq
  | encode (sl : SlotId)
  | decode (sl : SlotId)
  deriving DecidableEq, Repr

end Sys2Proof
end

