-- ==== Sys2Proof/WellFormed.lean ====
section
/-! DEFINITION. Which instructions an encoding can express: a position fits the 8-bit `POS` field
(30_encoding.md R70, R73). Every other operand is an inductive type that holds exactly the values of
its field. -/

namespace Sys2Proof

/-- A position is a number 0..255 (30_encoding.md R73 and R80; `POS_WIDTH` of 00_scope.md R8). -/
def posFits (pos : Nat) : Bool :=
  decide (pos < 2 ^ Config.posWidth)

/-- The instruction has an encoding. -/
def Instr.wellFormed : Instr → Bool
  | .clear _ => true
  | .init _ _ => true
  | .getfmt _ => true
  | .setfmt _ _ => true
  | .getid _ => true
  | .setid _ => true
  | .getdlc _ => true
  | .setdlc _ => true
  | .getsize _ => true
  | .setsize _ => true
  | .getb _ pos => posFits pos
  | .setb _ pos => posFits pos
  | .geth _ pos _ => posFits pos
  | .seth _ pos _ => posFits pos
  | .getw _ pos _ => posFits pos
  | .setw _ pos _ => posFits pos
  | .getrtr _ => true
  | .setrtr _ _ => true
  | .getbrs _ => true
  | .setbrs _ _ => true
  | .getesi _ => true
  | .setesi _ _ => true
  | .getfdf _ => true
  | .getmrk _ => true
  | .setmrk _ => true
  | .getusr _ => true
  | .setusr _ => true
  | .eq => true
  | .encode _ => true
  | .decode _ => true

end Sys2Proof
end

