-- ==== Sys2Proof/Decode.lean ====
section
/-! DEFINITION. The command word of 30_encoding.md: the decoder (R73, R75, R76, R78), total on every
32-bit word and rejecting by name, and after it the encoder, written from the same layout (R70). A
command arrives whole on the request port (R77, R79), so no byte order and no length come in. -/

namespace Sys2Proof

/-- Why the pre-check of R78 refuses a word. Both answer `ILLEGAL`. -/
inductive DecodeError where
  /-- `CMD[31:24]` or `CMD[15:10]` is nonzero. -/
  | reservedBits
  /-- `OPC` is 0x00 or 0x1F. -/
  | reservedOpcode
  deriving DecidableEq, Repr

/-! ## Field codes -/

/-- The format codes (10_state.md R21), the parameter `FMT_CODE` of 93_implementation_defined.md I11
at its default (log entry 10). -/
def Format.code : Format → BitVec 2
  | .canStd => 0
  | .canExt => 1
  | .fdStd => 2
  | .fdExt => 3

/-- The format a code names; all four codes are legal (10_state.md R21). -/
def Format.ofCode (c : BitVec 2) : Format :=
  if c = 0 then .canStd else if c = 1 then .canExt else if c = 2 then .fdStd else .fdExt

/-- The `SLOT` bit of a slot (R70). -/
def SlotId.bit : SlotId → BitVec 1
  | .s0 => 0
  | .s1 => 1

/-- The slot a `SLOT` bit names. -/
def SlotId.ofBit (b : BitVec 1) : SlotId :=
  if b = 0 then .s0 else .s1

/-- The `END` bit of a byte order: 1 is big-endian (R70; 20_memory.md R52). -/
def Endian.bit : Endian → BitVec 1
  | .little => 0
  | .big => 1

/-- The byte order an `END` bit names. -/
def Endian.ofBit (b : BitVec 1) : Endian :=
  if b = 0 then .little else .big

/-- A flag value as one bit. -/
def flagBit (v : Bool) : BitVec 1 :=
  if v then 1 else 0

/-! ## The fields of a command word (R70, R73) -/

/-- `OPC = CMD[4:0]`. -/
def opcField (w : Word) : BitVec 5 := w.extractLsb' 0 5

/-- `s = CMD[5]`. -/
def slotField (w : Word) : SlotId := SlotId.ofBit (w.extractLsb' 5 1)

/-- `f = CMD[7:6]`. -/
def fmtField (w : Word) : Format := Format.ofCode (w.extractLsb' 6 2)

/-- `end = CMD[8]`. -/
def endField (w : Word) : Endian := Endian.ofBit (w.extractLsb' 8 1)

/-- `val = CMD[9]`. -/
def valField (w : Word) : Bool := w.extractLsb' 9 1 == 1

/-- `pos = zext(CMD[23:16])`, a natural number. -/
def posField (w : Word) : Nat := (w.extractLsb' 16 8).toNat

/-- `RSV0 = CMD[15:10]`. -/
def rsv0Field (w : Word) : BitVec 6 := w.extractLsb' 10 6

/-- `RSV1 = CMD[31:24]`. -/
def rsv1Field (w : Word) : BitVec 8 := w.extractLsb' 24 8

/-! ## Decoding -/

/-- The opcode map of R75, on a word whose reserved bits are 0. Fields that the row's format does not
read are ignored (R72). -/
def decodeOpcode (w : Word) : Except DecodeError Instr :=
  match (opcField w).toNat with
  | 0x01 => .ok (.clear (slotField w))
  | 0x02 => .ok (.init (slotField w) (fmtField w))
  | 0x03 => .ok (.getfmt (slotField w))
  | 0x04 => .ok (.setfmt (slotField w) (fmtField w))
  | 0x05 => .ok (.getid (slotField w))
  | 0x06 => .ok (.setid (slotField w))
  | 0x07 => .ok (.getdlc (slotField w))
  | 0x08 => .ok (.setdlc (slotField w))
  | 0x09 => .ok (.getsize (slotField w))
  | 0x0A => .ok (.setsize (slotField w))
  | 0x0B => .ok (.getb (slotField w) (posField w))
  | 0x0C => .ok (.setb (slotField w) (posField w))
  | 0x0D => .ok (.geth (slotField w) (posField w) (endField w))
  | 0x0E => .ok (.seth (slotField w) (posField w) (endField w))
  | 0x0F => .ok (.getw (slotField w) (posField w) (endField w))
  | 0x10 => .ok (.setw (slotField w) (posField w) (endField w))
  | 0x11 => .ok (.getrtr (slotField w))
  | 0x12 => .ok (.setrtr (slotField w) (valField w))
  | 0x13 => .ok (.getbrs (slotField w))
  | 0x14 => .ok (.setbrs (slotField w) (valField w))
  | 0x15 => .ok (.getesi (slotField w))
  | 0x16 => .ok (.setesi (slotField w) (valField w))
  | 0x17 => .ok (.getfdf (slotField w))
  | 0x18 => .ok (.getmrk (slotField w))
  | 0x19 => .ok (.setmrk (slotField w))
  | 0x1A => .ok (.getusr (slotField w))
  | 0x1B => .ok (.setusr (slotField w))
  | 0x1C => .ok .eq
  | 0x1D => .ok (.encode (slotField w))
  | 0x1E => .ok (.decode (slotField w))
  | _ => .error .reservedOpcode

/-- The decoder: the reserved-bit test of the pre-check, then the opcode map (R78). -/
def decodeWord (w : Word) : Except DecodeError Instr :=
  if rsv1Field w ≠ 0 ∨ rsv0Field w ≠ 0 then .error .reservedBits else decodeOpcode w

/-- The instruction the decoder reads from a table row's word. A command is exactly one 32-bit word
(R77), so a word with a bit above bit 31 is none. -/
def decodeTableWord (nbits w : Nat) : Option Instr :=
  if w % 2 ^ nbits < 2 ^ 32 then
    match decodeWord (BitVec.ofNat 32 (w % 2 ^ nbits)) with
    | .ok i => some i
    | .error _ => none
  else none

/-! ## Encoding -/

/-- A command word from its fields, in the order of the pattern string of R70, most significant bit
first: `00000000 pppppppp 000000 v e ff s ooooo`. -/
def packWord (pos : BitVec 8) (val endian : BitVec 1) (fmt : BitVec 2) (slot : BitVec 1)
    (opc : BitVec 5) : Word :=
  0#8 ++ pos ++ 0#6 ++ val ++ endian ++ fmt ++ slot ++ opc

/-- Format S: only SLOT is named; every other field is 0 (R71, R80). -/
def packS (opc : BitVec 5) (sl : SlotId) : Word := packWord 0 0 0 0 sl.bit opc

/-- Formats SF and SFA. -/
def packSF (opc : BitVec 5) (sl : SlotId) (f : Format) : Word := packWord 0 0 0 f.code sl.bit opc

/-- Formats SP and SPA. -/
def packSP (opc : BitVec 5) (sl : SlotId) (pos : Nat) : Word :=
  packWord (BitVec.ofNat 8 pos) 0 0 0 sl.bit opc

/-- Formats SPE and SPEA. -/
def packSPE (opc : BitVec 5) (sl : SlotId) (pos : Nat) (e : Endian) : Word :=
  packWord (BitVec.ofNat 8 pos) 0 e.bit 0 sl.bit opc

/-- Format SV. -/
def packSV (opc : BitVec 5) (sl : SlotId) (v : Bool) : Word :=
  packWord 0 (flagBit v) 0 0 sl.bit opc

/-- The canonical word of an instruction: its own fields, and 0 in every field it does not name
(R70, R75, R80). -/
def encode : Instr → Word
  | .clear sl => packS 0x01 sl
  | .init sl f => packSF 0x02 sl f
  | .getfmt sl => packS 0x03 sl
  | .setfmt sl f => packSF 0x04 sl f
  | .getid sl => packS 0x05 sl
  | .setid sl => packS 0x06 sl
  | .getdlc sl => packS 0x07 sl
  | .setdlc sl => packS 0x08 sl
  | .getsize sl => packS 0x09 sl
  | .setsize sl => packS 0x0A sl
  | .getb sl pos => packSP 0x0B sl pos
  | .setb sl pos => packSP 0x0C sl pos
  | .geth sl pos e => packSPE 0x0D sl pos e
  | .seth sl pos e => packSPE 0x0E sl pos e
  | .getw sl pos e => packSPE 0x0F sl pos e
  | .setw sl pos e => packSPE 0x10 sl pos e
  | .getrtr sl => packS 0x11 sl
  | .setrtr sl v => packSV 0x12 sl v
  | .getbrs sl => packS 0x13 sl
  | .setbrs sl v => packSV 0x14 sl v
  | .getesi sl => packS 0x15 sl
  | .setesi sl v => packSV 0x16 sl v
  | .getfdf sl => packS 0x17 sl
  | .getmrk sl => packS 0x18 sl
  | .setmrk sl => packS 0x19 sl
  | .getusr sl => packS 0x1A sl
  | .setusr sl => packS 0x1B sl
  | .eq => packS 0x1C .s0
  | .encode sl => packS 0x1D sl
  | .decode sl => packS 0x1E sl

/-! ## What a command reads (R71, R72) -/

/-- The bits of the command word that the instruction's opcode and format read: the opcode and the
fields of R71. The bits outside it and outside the reserved fields are written `x` in
opcode_table.json. -/
def fieldMask : Instr → Word
  | .init _ _ | .setfmt _ _ => 0x000000FF
  | .getb _ _ | .setb _ _ => 0x00FF003F
  | .geth _ _ _ | .seth _ _ _ | .getw _ _ _ | .setw _ _ _ => 0x00FF013F
  | .setrtr _ _ | .setbrs _ _ | .setesi _ _ => 0x0000023F
  | .eq => 0x0000001F
  | .clear _ | .getfmt _ | .getid _ | .setid _ | .getdlc _ | .setdlc _ | .getsize _ | .setsize _
  | .getrtr _ | .getbrs _ | .getesi _ | .getfdf _ | .getmrk _ | .setmrk _ | .getusr _ | .setusr _
  | .encode _ | .decode _ => 0x0000003F

/-- The command reads the port ARG0 (R71: a format with an `A`). -/
def readsArg0 : Instr → Bool
  | .init _ _ | .setid _ | .setdlc _ | .setsize _ | .setmrk _ | .setusr _
  | .setb _ _ | .seth _ _ _ | .setw _ _ _ => true
  | .clear _ | .getfmt _ | .setfmt _ _ | .getid _ | .getdlc _ | .getsize _ | .getb _ _
  | .geth _ _ _ | .getw _ _ _ | .getrtr _ | .setrtr _ _ | .getbrs _ | .setbrs _ _ | .getesi _
  | .setesi _ _ | .getfdf _ | .getmrk _ | .getusr _ | .eq | .encode _ | .decode _ => false

/-- The command reads the port ARG1: INIT alone (R71). -/
def readsArg1 : Instr → Bool
  | .init _ _ => true
  | .clear _ | .getfmt _ | .setfmt _ _ | .getid _ | .setid _ | .getdlc _ | .setdlc _ | .getsize _
  | .setsize _ | .getb _ _ | .setb _ _ | .geth _ _ _ | .seth _ _ _ | .getw _ _ _ | .setw _ _ _
  | .getrtr _ | .setrtr _ _ | .getbrs _ | .setbrs _ _ | .getesi _ | .setesi _ _ | .getfdf _
  | .getmrk _ | .setmrk _ | .getusr _ | .setusr _ | .eq | .encode _ | .decode _ => false

/-- The command reads the port IMG_IN: DECODE alone (R71). -/
def readsImgIn : Instr → Bool
  | .decode _ => true
  | .clear _ | .init _ _ | .getfmt _ | .setfmt _ _ | .getid _ | .setid _ | .getdlc _ | .setdlc _
  | .getsize _ | .setsize _ | .getb _ _ | .setb _ _ | .geth _ _ _ | .seth _ _ _ | .getw _ _ _
  | .setw _ _ _ | .getrtr _ | .setrtr _ _ | .getbrs _ | .setbrs _ _ | .getesi _ | .setesi _ _
  | .getfdf _ | .getmrk _ | .setmrk _ | .getusr _ | .setusr _ | .eq | .encode _ => false

end Sys2Proof
end

