-- ==== Sys2Proof/Machine/State.lean ====
section
/-! DEFINITION. The state of the FrameCodec (10_state.md), the ways a step could stop, and reset. -/

namespace Sys2Proof.Machine

/-- The payload store of a slot: position and byte pairs with rising positions and no zero byte; an
unlisted position reads 0, the reset content of 10_state.md R39. -/
abbrev Memory := List Host.Cell

/-- One frame slot (10_state.md R20 to R28). Size and FDF are derived and not stored (R27, R29). -/
@[ext]
structure Slot where
  /-- `FMT : u2` (R21). -/
  fmt : Format
  /-- `ID : u32` (R22). -/
  id : Word
  /-- `DLC : u4` (R23). -/
  dlc : BitVec 4
  /-- `P : array[64] of u8` (R24). -/
  p : Memory
  /-- `RTR : u1` (R25). -/
  rtr : Bool
  /-- `BRS : u1` (R26). -/
  brs : Bool
  /-- `ESI : u1` (R26). -/
  esi : Bool
  /-- `MARKER : u32` (R28). -/
  marker : Word
  /-- `USER : u32` (R28). -/
  user : Word
  deriving DecidableEq, Repr

/-- `STATUS : u2` (10_state.md R33). Code 3 is never produced and has no name here. -/
inductive Status where
  | ok
  | illegal
  | protocolError
  deriving DecidableEq, Repr

/-- One request: the values of the request ports (10_state.md R32). -/
structure Request where
  cmd : Word
  arg0 : Word
  arg1 : Word
  imgIn : Image
  deriving DecidableEq, Repr

/-- What the host does between two commands: it presents a request (30_encoding.md R79) or asserts
reset (70_reset_and_hazards.md R301). -/
inductive HostEvent where
  | request (r : Request)
  | reset
  deriving DecidableEq, Repr

/-- One response: STATUS, RES and, for ENCODE, the output image (00_scope.md R7). -/
structure Response where
  status : Status
  res : Word
  image : Option Image
  deriving DecidableEq, Repr

/-- The whole state. `slot0` to `imgOut` are the spec's (10_state.md R20, R33); `ports`, `host` and
`responses` are the model's own (log entries 1, 3 and 4). -/
@[ext]
structure State where
  /-- Frame slot 0. -/
  slot0 : Slot
  /-- Frame slot 1. -/
  slot1 : Slot
  /-- `STATUS` (R33). -/
  status : Status
  /-- `RES` (R33, R34). -/
  res : Word
  /-- `IMG_OUT` (R33). -/
  imgOut : Image
  /-- The request ports during one command (R32). DESIGN CHOICE (log entry 3), unsafe: a field. -/
  ports : Request
  /-- What the host does next, first event first (R37, R38). DESIGN CHOICE (log entry 1), safe. -/
  host : List HostEvent
  /-- The responses returned so far, newest first (00_scope.md R18; 60_exceptions.md R274).
  DESIGN CHOICE (log entry 4), safe. -/
  responses : List Response
  deriving DecidableEq, Repr

/-- The machine has no fault: "The block has no fatal error, stuck state or hang" (60_exceptions.md
R273). No constructor, so nobody raises one; safe. -/
inductive Fault where
  deriving DecidableEq, Repr

/-- The refusals of the model. -/
inductive Refusal where
  /-- An instruction that has no meaning yet. Raised by no arm of this model; safe. -/
  | notModelled (mnemonic : String)
  deriving DecidableEq, Repr

/-- A slot after reset (10_state.md R39). -/
def Slot.reset : Slot where
  fmt := .canStd
  id := 0
  dlc := 0
  p := []
  rtr := false
  brs := false
  esi := false
  marker := 0
  user := 0

/-- An image of 72 zero bytes. -/
def zeroImage : Image := Vector.replicate 72 0

/-- A request with every port 0 (log entry 3: no command reads it). -/
def Request.zero : Request where
  cmd := 0
  arg0 := 0
  arg1 := 0
  imgIn := zeroImage

/-- The machine right after reset (10_state.md R39; 70_reset_and_hazards.md R300). -/
def State.reset : State where
  slot0 := Slot.reset
  slot1 := Slot.reset
  status := .ok
  res := 0
  imgOut := zeroImage
  ports := Request.zero
  host := []
  responses := []

end Sys2Proof.Machine
end

