-- ==== Sys2Proof/Machine/Params.lean ====
section
/-! DEFINITION. The parameters of 93_implementation_defined.md that are not a single definition
elsewhere (I3, I4, I5), each at the default the spec's rules fix. FMT_CODE (I11) is `Format.code` and
WIRE_LAYOUT (I10) is Machine/Image.lean. -/

namespace Sys2Proof.Machine

/-- `GROW_FILL` (93_implementation_defined.md I3): what a growing size exposes. -/
inductive GrowFill where
  /-- The bytes the store already holds. -/
  | retain
  /-- Zeros. -/
  | zero
  deriving DecidableEq, Repr

/-- `REMASK_ON_FMT` (93_implementation_defined.md I4): where a format change masks the identifier. -/
inductive RemaskOnFmt where
  /-- At the change, in the stored value. -/
  | store
  /-- At each read. -/
  | read
  deriving DecidableEq, Repr

/-- `EQ_FLAGS` (93_implementation_defined.md I5): whether EQ compares RTR, BRS and ESI. -/
inductive EqFlags where
  | ignore
  | compare
  deriving DecidableEq, Repr

/-- RETAIN, as 10_state.md R24 and R31 say. DESIGN CHOICE of the spec (D7), unsafe: log entry 7. -/
def growFill : GrowFill := .retain

/-- STORE, as 41_format.md R121 says. DESIGN CHOICE of the spec (D10), unsafe: log entry 8. -/
def remaskOnFmt : RemaskOnFmt := .store

/-- IGNORE, as 46_metadata_equality.md R224 says. DESIGN CHOICE of the spec (D17), unsafe: log
entry 9. -/
def eqFlags : EqFlags := .ignore

end Sys2Proof.Machine
end

