-- ==== Sys2Proof/Machine/Frame.lean ====
section
/-! DEFINITION. The helper functions of 00_scope.md R13 and the DLC-to-length table of 43_length.md. -/

namespace Sys2Proof.Machine

/-- `isFD(f) = f[1]` (00_scope.md R13; 10_state.md R21). -/
def isFD : Format → Bool
  | .canStd => false
  | .canExt => false
  | .fdStd => true
  | .fdExt => true

/-- `isExt(f) = f[0]` (00_scope.md R13; 10_state.md R21). -/
def isExt : Format → Bool
  | .canStd => false
  | .canExt => true
  | .fdStd => false
  | .fdExt => true

/-- `mask(f)` (00_scope.md R13). -/
def mask (f : Format) : Word :=
  if isExt f then Config.maskExt else Config.maskStd

/-- `dlcMax(f)` (00_scope.md R13). -/
def dlcMax (f : Format) : Nat :=
  if isFD f then Config.dlcMaxFd else Config.dlcMaxClassic

/-- `LEN_MAX(f)` (43_length.md R167). -/
def lenMax (f : Format) : Nat :=
  if isFD f then Config.lenMaxFd else Config.lenMaxClassic

/-- The row of the table of 43_length.md R160 for the family of `f`, from DLC 0 up to its last entry
that is not a dash. -/
def lengthRow (f : Format) : List Nat :=
  if isFD f then [0, 1, 2, 3, 4, 5, 6, 7, 8, 12, 16, 20, 24, 32, 48, 64]
  else [0, 1, 2, 3, 4, 5, 6, 7, 8]

/-- `dlcToLen(f, d)` (43_length.md R160); at a dash, the free value of log entry 6. -/
def dlcToLen (f : Format) (d : BitVec 4) : Nat :=
  match (lengthRow f)[d.toNat]? with
  | some n => n
  | none => (Config.dashLength d).val

/-- `lenToDlc(f, n)` (43_length.md R161). -/
def lenToDlc (f : Format) (n : Nat) : BitVec 4 :=
  if isFD f = false then BitVec.ofNat 4 (min n 8)
  else if n ≤ 8 then BitVec.ofNat 4 n
  else if n ≤ 12 then 9
  else if n ≤ 16 then 10
  else if n ≤ 20 then 11
  else if n ≤ 24 then 12
  else if n ≤ 32 then 13
  else if n ≤ 48 then 14
  else 15

/-- `min(d, dlcMax(f))`, the clamp of SETDLC and INIT (43_length.md R163, 40_construct.md R101). -/
def clampDlc (f : Format) (d : Word) : BitVec 4 :=
  BitVec.ofNat 4 (min d.toNat (dlcMax f))

/-- `size(s) = dlcToLen(S[s].FMT, S[s].DLC)` (00_scope.md R13; 10_state.md R29). -/
def Slot.size (s : Slot) : Nat :=
  dlcToLen s.fmt s.dlc

/-- `FDF(s) = isFD(S[s].FMT)` (10_state.md R27). -/
def Slot.fdf (s : Slot) : Bool :=
  isFD s.fmt

end Sys2Proof.Machine
end

