-- ==== Sys2Proof/Machine/Ops.lean ====
section
/-! DEFINITION. The operations over the payload store, the slots and the response registers that the
meanings share. The block has no trap entry and no trap return (60_exceptions.md R277, R278): its two
errors are the responses `raiseIllegal` and `raiseProtocolError` (00_scope.md R12). -/

namespace Sys2Proof.Machine

/-! ## The payload store as plain data -/

/-- The byte at a position; an unlisted position reads 0. -/
def Memory.read : Memory → Nat → Byte
  | [], _ => 0
  | (b, w) :: rest, a => if a = b then w else Memory.read rest a

/-- Put a byte in front of a store whose positions are all higher; a zero is not listed. -/
def Memory.cons (a : Nat) (v : Byte) (m : Memory) : Memory :=
  if v = 0 then m else (a, v) :: m

/-- Take a position out of the list, so that it reads 0. -/
def Memory.erase (m : Memory) (a : Nat) : Memory :=
  m.filter fun c => c.1 != a

/-- Put a listed byte where its position belongs. -/
def Memory.insert : Memory → Nat → Byte → Memory
  | [], a, v => [(a, v)]
  | (b, w) :: rest, a, v =>
    if a < b then (a, v) :: (b, w) :: rest else (b, w) :: Memory.insert rest a v

/-- Write one byte, keeping the canonical form: a zero is not listed. -/
def Memory.write (m : Memory) (a : Nat) (v : Byte) : Memory :=
  if v = 0 then m.erase a else (m.erase a).insert a v

/-- Write bytes at consecutive positions from `a` up. -/
def Memory.writeList (m : Memory) (a : Nat) : List Byte → Memory
  | [] => m
  | v :: vs => Memory.writeList (m.write a v) (a + 1) vs

/-- The bytes at `n` consecutive positions from `a` up. -/
def Memory.readList (m : Memory) (a : Nat) : Nat → List Byte
  | 0 => []
  | n + 1 => m.read a :: Memory.readList m (a + 1) n

/-- The part of a store that gives position `a + k` the byte `f (a + k)`, for `k < n`. -/
def Memory.ofFnFrom (f : Nat → Byte) (a : Nat) : Nat → Memory
  | 0 => []
  | n + 1 => Memory.cons a (f a) (Memory.ofFnFrom f (a + 1) n)

/-- The store whose byte at each position `i < 64` is `f i`. -/
def Memory.ofFn (f : Nat → Byte) : Memory :=
  Memory.ofFnFrom f 0 Config.payloadStore

/-- Zero the positions `lo ≤ i < hi`. -/
def Memory.zeroRange (m : Memory) (lo hi : Nat) : Memory :=
  m.filter fun c => decide (c.1 < lo) || decide (hi ≤ c.1)

/-- The canonical form, for positions from `lo` up: rising, inside the 64-byte store, no zero byte. -/
def Memory.wfFrom (lo : Nat) : Memory → Bool
  | [] => true
  | (a, v) :: rest =>
    decide (lo ≤ a) && decide (a < Config.payloadStore) && (v != 0) && Memory.wfFrom (a + 1) rest

/-- The canonical form of a payload store. -/
def Memory.wf (m : Memory) : Bool :=
  Memory.wfFrom 0 m

/-! ## Byte order (20_memory.md R52 to R54) -/

/-- Bytes, most significant first, as one number: `b0 ++ b1 ++ …`. -/
def joinBytes (bs : List Byte) : Word :=
  bs.foldl (fun acc b => (acc <<< 8) ||| b.setWidth 32) 0

/-- `byte_k = v[8k+7 : 8k]`; `byte_0` is the least significant (R54). -/
def byteOf (v : Word) (k : Nat) : Byte :=
  v.extractLsb' (8 * k) 8

/-- Put bytes given from the lowest position up into most-significant-first order, and back. -/
def orderBytes (e : Endian) (bs : List Byte) : List Byte :=
  match e with
  | .big => bs
  | .little => bs.reverse

/-- The low `n` bytes of `v`, most significant first. -/
def splitBytes (v : Word) : Nat → List Byte
  | 0 => []
  | n + 1 => byteOf v n :: splitBytes v n

/-! ## Payload access (20_memory.md R50 to R54) -/

/-- An access of `n` bytes at `pos` is in range: `pos + n <= size(s)` (R50). -/
def Slot.inRange (s : Slot) (pos n : Nat) : Bool :=
  decide (pos + n ≤ s.size)

/-- `MemRead(s, pos, n, end)` (R53), zero-extended to 32 bits. -/
def Slot.memRead (s : Slot) (pos n : Nat) (e : Endian) : Word :=
  if s.inRange pos n then joinBytes (orderBytes e (s.p.readList pos n)) else 0

/-- `MemWrite(s, pos, n, v, end)` (R54), with `v` the low `n` bytes of a word. -/
def Slot.memWrite (s : Slot) (pos n : Nat) (v : Word) (e : Endian) : Slot :=
  if s.inRange pos n then
    { s with p := s.p.writeList pos (orderBytes e (splitBytes v n)) }
  else s

/-- The byte a frame shows at position `i`: `i < size(s) ? S[s].P[i] : 0` (10_state.md R29, R31;
47_wire.md R242). -/
def Slot.visible (s : Slot) (i : Nat) : Byte :=
  if i < s.size then s.p.read i else 0

/-! ## Slot updates -/

/-- The empty frame that CLEAR constructs (40_construct.md R100). -/
def Slot.cleared : Slot where
  fmt := .canStd
  id := 0
  dlc := 0
  p := []
  rtr := false
  brs := false
  esi := false
  marker := 0
  user := 0

/-- The frame that INIT constructs (40_construct.md R101). -/
def Slot.constructed (f : Format) (id dlc : Word) : Slot where
  fmt := f
  id := id &&& mask f
  dlc := clampDlc f dlc
  p := []
  rtr := false
  brs := false
  esi := false
  marker := 0
  user := 0

/-- What a change from `old` to `new` does to the bytes it exposes: nothing under RETAIN (10_state.md
R31); under the other value of `GROW_FILL` they become 0 (log entry 7). -/
def Slot.grownFrom (old new : Slot) : Slot :=
  match growFill with
  | .retain => new
  | .zero => { new with p := new.p.zeroRange old.size new.size }

/-- `S[s].DLC <- d`, the store untouched (43_length.md R163, R166). -/
def Slot.setDlc (s : Slot) (d : BitVec 4) : Slot :=
  Slot.grownFrom s { s with dlc := d }

/-- `S[s].ID <- x & mask(S[s].FMT)` (42_identifier.md R141). -/
def Slot.setId (s : Slot) (x : Word) : Slot :=
  { s with id := x &&& mask s.fmt }

/-- The identifier that GETID, ENCODE and EQ read: the stored one (10_state.md R22); under the other
value of `REMASK_ON_FMT` it is masked here (log entry 8). -/
def Slot.readId (s : Slot) : Word :=
  match remaskOnFmt with
  | .store => s.id
  | .read => s.id &&& mask s.fmt

/-- The identifier a change to format `f` stores (41_format.md R121; log entry 8). -/
def Slot.idForFormat (s : Slot) (f : Format) : Word :=
  match remaskOnFmt with
  | .store => s.id &&& mask f
  | .read => s.id

/-- The two families differ (41_format.md R121). -/
def familyChange (old new : Format) : Bool :=
  isFD old != isFD new

/-- The DLC a change to format `f` leaves: FD to classic clamps to 8 (41_format.md R121). -/
def Slot.dlcForFormat (s : Slot) (f : Format) : BitVec 4 :=
  if isFD s.fmt = true ∧ isFD f = false ∧ s.dlc.toNat > 8 then 8 else s.dlc

/-- SETFMT's update as one simultaneous assignment (41_format.md R121, R122). -/
def Slot.changeFormat (s : Slot) (f : Format) : Slot :=
  Slot.grownFrom s
    { s with
      fmt := f
      id := s.idForFormat f
      dlc := s.dlcForFormat f
      rtr := if familyChange s.fmt f then false else s.rtr
      brs := if familyChange s.fmt f then false else s.brs
      esi := if familyChange s.fmt f then false else s.esi }

/-- The flags compare equal where `EQ_FLAGS` asks for it; under IGNORE they are not read
(46_metadata_equality.md R224; log entry 9). -/
def Slot.eqFlagsMatch (a b : Slot) : Bool :=
  match eqFlags with
  | .ignore => true
  | .compare => (a.rtr == b.rtr) && (a.brs == b.brs) && (a.esi == b.esi)

/-- The comparison of EQ (46_metadata_equality.md R224). -/
def Slot.sameFrame (a b : Slot) : Bool :=
  decide (a.fmt = b.fmt) && (a.readId == b.readId) && (a.dlc == b.dlc)
    && (List.range a.size).all (fun i => a.p.read i == b.p.read i)
    && Slot.eqFlagsMatch a b

/-! ## The state: slots and responses -/

/-- `S[s]`. -/
def State.slot (s : State) : SlotId → Slot
  | .s0 => s.slot0
  | .s1 => s.slot1

/-- Replace `S[s]`. -/
def State.setSlot (s : State) (sl : SlotId) (x : Slot) : State :=
  match sl with
  | .s0 => { s with slot0 := x }
  | .s1 => { s with slot1 := x }

/-- The code of STATUS (10_state.md R33). -/
def Status.code : Status → BitVec 2
  | .ok => 0
  | .illegal => 1
  | .protocolError => 2

/-- `respond(st, r)` (00_scope.md R12): STATUS and RES are written and the response is returned. -/
def State.respond (s : State) (st : Status) (r : Word) : State :=
  { s with
    status := st
    res := r
    responses := { status := st, res := r, image := none } :: s.responses }

/-- The response of ENCODE: `IMG_OUT <- img`, then `respond(OK, 0)`, the image returned with it
(47_wire.md R243; 00_scope.md R7). -/
def State.respondImage (s : State) (img : Image) : State :=
  { s with
    imgOut := img
    status := .ok
    res := 0
    responses := { status := .ok, res := 0, image := some img } :: s.responses }

/-- `raise Illegal` (00_scope.md R12; 60_exceptions.md R270). -/
def State.raiseIllegal (s : State) : State :=
  s.respond .illegal 0

/-- `raise ProtocolError` (00_scope.md R12; 60_exceptions.md R271). -/
def State.raiseProtocolError (s : State) : State :=
  s.respond .protocolError 0

/-- End a GET-type command: OK with the value read. -/
def answer (s : State) (r : Word) : Host.Outcome State Fault Refusal :=
  .next (s.respond .ok r)

/-- End a SET-type command: the slot updated, OK, RES 0 (10_state.md R34). -/
def update (s : State) (sl : SlotId) (x : Slot) : Host.Outcome State Fault Refusal :=
  .next ((s.setSlot sl x).respond .ok 0)

/-- One bit as a u32. -/
def bitWord (b : Bool) : Word :=
  if b then 1 else 0

/-! ## What happens around a command -/

/-- Present a request: its values stand on the ports and the host's list moves on (10_state.md R32;
30_encoding.md R79). -/
def State.present (s : State) (r : Request) (rest : List HostEvent) : State :=
  { s with host := rest, ports := r }

/-- Reset (70_reset_and_hazards.md R300): both slots cleared, the response registers zeroed. The
host's list, the ports and the record of responses are outside the block and stay (log entry 5). -/
def State.applyReset (s : State) (rest : List HostEvent) : State :=
  { s with
    slot0 := Slot.cleared
    slot1 := Slot.cleared
    status := .ok
    res := 0
    imgOut := zeroImage
    host := rest }

/-- No event waits: the block holds its state (60_exceptions.md R283; log entry 2). -/
def State.idle (s : State) : State := s

/-- The request that puts command word `w` on the ports and leaves the operand ports as they are. -/
def State.requestWith (s : State) (w : Word) : Request :=
  { s.ports with cmd := w }

/-- Put a request of command word `w` in front of the host's list (log entry 11). -/
def State.pushCommand (s : State) (w : Word) : State :=
  { s with host := .request (s.requestWith w) :: s.host }

end Sys2Proof.Machine
end

