-- ==== Sys2Proof/Machine/Operands.lean ====
section
/-! DEFINITION. Operand assembly from the request ports (30_encoding.md R73). The operands of the
command word itself are assembled by the decoder. -/

namespace Sys2Proof.Machine

/-- ARG0 as a full 32-bit value. -/
def State.arg0 (s : State) : Word := s.ports.arg0

/-- ARG1 as a full 32-bit value. -/
def State.arg1 (s : State) : Word := s.ports.arg1

/-- `ARG0[7:0]`, the operand of SETB; the upper bits are ignored. -/
def State.arg0Byte (s : State) : Word := s.ports.arg0 &&& 0x000000FF

/-- `ARG0[15:0]`, the operand of SETH; the upper bits are ignored. -/
def State.arg0Half (s : State) : Word := s.ports.arg0 &&& 0x0000FFFF

/-- IMG_IN. -/
def State.imgIn (s : State) : Image := s.ports.imgIn

end Sys2Proof.Machine
end

