-- ==== Sys2Proof/Machine/Construct.lean ====
section
/-! DEFINITION. The construction commands (40_construct.md). -/

namespace Sys2Proof.Machine

/-- CLEAR (R100). -/
def execClear (sl : SlotId) (s : State) : Host.Outcome State Fault Refusal :=
  update s sl Slot.cleared

/-- INIT (R101): format `f`, identifier ARG0, DLC ARG1. -/
def execInit (sl : SlotId) (f : Format) (s : State) : Host.Outcome State Fault Refusal :=
  update s sl (Slot.constructed f s.arg0 s.arg1)

end Sys2Proof.Machine
end

