-- ==== Sys2Proof/Machine/Flags.lean ====
section
/-! DEFINITION. The format-conditional flags (45_flags.md): RTR in classic formats, BRS and ESI in FD
formats; elsewhere a read gives 0 and a write does nothing. -/

namespace Sys2Proof.Machine

/-- The RTR flag as GETRTR reads it (45_flags.md R200). -/
def Slot.readRtr (s : Slot) : Bool := if isFD s.fmt then false else s.rtr

/-- The BRS flag as GETBRS reads it (45_flags.md R202). -/
def Slot.readBrs (s : Slot) : Bool := if isFD s.fmt then s.brs else false

/-- The ESI flag as GETESI reads it (45_flags.md R204). -/
def Slot.readEsi (s : Slot) : Bool := if isFD s.fmt then s.esi else false

/-- SETRTR's write (45_flags.md R201). -/
def Slot.writeRtr (s : Slot) (v : Bool) : Slot := if isFD s.fmt then s else { s with rtr := v }

/-- SETBRS's write (45_flags.md R203). -/
def Slot.writeBrs (s : Slot) (v : Bool) : Slot := if isFD s.fmt then { s with brs := v } else s

/-- SETESI's write (45_flags.md R205). -/
def Slot.writeEsi (s : Slot) (v : Bool) : Slot := if isFD s.fmt then { s with esi := v } else s

end Sys2Proof.Machine
end

