-- ==== Sys2Proof/Machine/FlagCmds.lean ====
section
/-! DEFINITION. The flag commands (45_flags.md). RTR is an independent bit (R207). -/

namespace Sys2Proof.Machine

/-- GETRTR (R200). -/
def execGetrtr (sl : SlotId) (s : State) : Host.Outcome State Fault Refusal :=
  answer s (bitWord (s.slot sl).readRtr)

/-- SETRTR (R201). -/
def execSetrtr (sl : SlotId) (v : Bool) (s : State) : Host.Outcome State Fault Refusal :=
  update s sl ((s.slot sl).writeRtr v)

/-- GETBRS (R202). -/
def execGetbrs (sl : SlotId) (s : State) : Host.Outcome State Fault Refusal :=
  answer s (bitWord (s.slot sl).readBrs)

/-- SETBRS (R203). -/
def execSetbrs (sl : SlotId) (v : Bool) (s : State) : Host.Outcome State Fault Refusal :=
  update s sl ((s.slot sl).writeBrs v)

/-- GETESI (R204). -/
def execGetesi (sl : SlotId) (s : State) : Host.Outcome State Fault Refusal :=
  answer s (bitWord (s.slot sl).readEsi)

/-- SETESI (R205). -/
def execSetesi (sl : SlotId) (v : Bool) (s : State) : Host.Outcome State Fault Refusal :=
  update s sl ((s.slot sl).writeEsi v)

/-- GETFDF (R206). -/
def execGetfdf (sl : SlotId) (s : State) : Host.Outcome State Fault Refusal :=
  answer s (bitWord (s.slot sl).fdf)

end Sys2Proof.Machine
end

