-- ==== Sys2Proof/Machine/FormatCmds.lean ====
section
/-! DEFINITION. The format commands (41_format.md). -/

namespace Sys2Proof.Machine

/-- GETFMT (R120). -/
def execGetfmt (sl : SlotId) (s : State) : Host.Outcome State Fault Refusal :=
  answer s ((s.slot sl).fmt.code.setWidth 32)

/-- SETFMT (R121). -/
def execSetfmt (sl : SlotId) (f : Format) (s : State) : Host.Outcome State Fault Refusal :=
  update s sl ((s.slot sl).changeFormat f)

end Sys2Proof.Machine
end

