-- ==== Sys2Proof/Machine/Identifier.lean ====
section
/-! DEFINITION. The identifier commands (42_identifier.md). -/

namespace Sys2Proof.Machine

/-- GETID (R140). -/
def execGetid (sl : SlotId) (s : State) : Host.Outcome State Fault Refusal :=
  answer s (s.slot sl).readId

/-- SETID (R141). -/
def execSetid (sl : SlotId) (s : State) : Host.Outcome State Fault Refusal :=
  update s sl ((s.slot sl).setId s.arg0)

end Sys2Proof.Machine
end

