-- ==== Sys2Proof/Machine/Length.lean ====
section
/-! DEFINITION. The length commands (43_length.md). -/

namespace Sys2Proof.Machine

/-- GETDLC (R162). -/
def execGetdlc (sl : SlotId) (s : State) : Host.Outcome State Fault Refusal :=
  answer s ((s.slot sl).dlc.setWidth 32)

/-- SETDLC (R163). -/
def execSetdlc (sl : SlotId) (s : State) : Host.Outcome State Fault Refusal :=
  update s sl ((s.slot sl).setDlc (clampDlc (s.slot sl).fmt s.arg0))

/-- GETSIZE (R165). -/
def execGetsize (sl : SlotId) (s : State) : Host.Outcome State Fault Refusal :=
  answer s (BitVec.ofNat 32 (s.slot sl).size)

/-- SETSIZE (R166). -/
def execSetsize (sl : SlotId) (s : State) : Host.Outcome State Fault Refusal :=
  update s sl ((s.slot sl).setDlc (lenToDlc (s.slot sl).fmt s.arg0.toNat))

end Sys2Proof.Machine
end

