-- ==== Sys2Proof/Machine/Metadata.lean ====
section
/-! DEFINITION. The metadata and equality commands (46_metadata_equality.md). -/

namespace Sys2Proof.Machine

/-- GETMRK (R220). -/
def execGetmrk (sl : SlotId) (s : State) : Host.Outcome State Fault Refusal :=
  answer s (s.slot sl).marker

/-- SETMRK (R221). -/
def execSetmrk (sl : SlotId) (s : State) : Host.Outcome State Fault Refusal :=
  update s sl { s.slot sl with marker := s.arg0 }

/-- GETUSR (R222). -/
def execGetusr (sl : SlotId) (s : State) : Host.Outcome State Fault Refusal :=
  answer s (s.slot sl).user

/-- SETUSR (R223). -/
def execSetusr (sl : SlotId) (s : State) : Host.Outcome State Fault Refusal :=
  update s sl { s.slot sl with user := s.arg0 }

/-- EQ (R224). -/
def execEq (s : State) : Host.Outcome State Fault Refusal :=
  answer s (bitWord (Slot.sameFrame (s.slot .s0) (s.slot .s1)))

end Sys2Proof.Machine
end

