-- ==== Sys2Proof/Machine/Payload.lean ====
section
/-! DEFINITION. The payload commands (44_payload.md), through `MemRead` and `MemWrite`. Single-byte
accesses ignore `END` (20_memory.md R52). -/

namespace Sys2Proof.Machine

/-- GETB (R180). -/
def execGetb (sl : SlotId) (pos : Nat) (s : State) : Host.Outcome State Fault Refusal :=
  answer s ((s.slot sl).memRead pos 1 .little)

/-- SETB (R181). -/
def execSetb (sl : SlotId) (pos : Nat) (s : State) : Host.Outcome State Fault Refusal :=
  update s sl ((s.slot sl).memWrite pos 1 s.arg0Byte .little)

/-- GETH (R182). -/
def execGeth (sl : SlotId) (pos : Nat) (e : Endian) (s : State) : Host.Outcome State Fault Refusal :=
  answer s ((s.slot sl).memRead pos 2 e)

/-- SETH (R183). -/
def execSeth (sl : SlotId) (pos : Nat) (e : Endian) (s : State) : Host.Outcome State Fault Refusal :=
  update s sl ((s.slot sl).memWrite pos 2 s.arg0Half e)

/-- GETW (R184). -/
def execGetw (sl : SlotId) (pos : Nat) (e : Endian) (s : State) : Host.Outcome State Fault Refusal :=
  answer s ((s.slot sl).memRead pos 4 e)

/-- SETW (R185). -/
def execSetw (sl : SlotId) (pos : Nat) (e : Endian) (s : State) : Host.Outcome State Fault Refusal :=
  update s sl ((s.slot sl).memWrite pos 4 s.arg0 e)

end Sys2Proof.Machine
end

