-- ==== Sys2Proof/Machine/Image.lean ====
section
/-! DEFINITION. The wire image WIRE-v1 (47_wire.md R240 to R242), the parameter `WIRE_LAYOUT` of
93_implementation_defined.md I10 at its default (log entry 10). -/

namespace Sys2Proof.Machine

/-- Byte `k` of an image, `img[k]`. -/
def imgByte (img : Image) (k : Nat) : Byte := img.toList.getD k 0

/-- The image whose byte `k` is `f k`. -/
def imgOfFn (f : Nat → Byte) : Image := Vector.ofFn fun k : Fin 72 => f k.val

/-! ## Image(s) -/

/-- Byte 1: `0b000 ++ ESI ++ BRS ++ RTR ++ FMT` (R242). -/
def flagsByte (s : Slot) : Byte :=
  0#3 ++ flagBit s.esi ++ flagBit s.brs ++ flagBit s.rtr ++ s.fmt.code

/-- `Image(s)[k]` (R242). -/
def imageByte (s : Slot) : Nat → Byte
  | 0 => Config.wireVersion
  | 1 => flagsByte s
  | 2 => 0#4 ++ s.dlc
  | 3 => 0x00
  | 4 => byteOf s.readId 3
  | 5 => byteOf s.readId 2
  | 6 => byteOf s.readId 1
  | 7 => byteOf s.readId 0
  | i + 8 => s.visible i

/-- `Image(s)` (R242). -/
def imageOf (s : Slot) : Image := imgOfFn (imageByte s)

/-! ## The fields of an image (R240, R241) -/

/-- `f = img[1][1:0]`. -/
def imgFmt (img : Image) : Format := Format.ofCode ((imgByte img 1).extractLsb' 0 2)

/-- `img[1][2]`. -/
def imgRtr (img : Image) : Bool := (imgByte img 1).getLsbD 2

/-- `img[1][3]`. -/
def imgBrs (img : Image) : Bool := (imgByte img 1).getLsbD 3

/-- `img[1][4]`. -/
def imgEsi (img : Image) : Bool := (imgByte img 1).getLsbD 4

/-- `d = img[2][3:0]`. -/
def imgDlc (img : Image) : BitVec 4 := (imgByte img 2).extractLsb' 0 4

/-- `id = img[4] ++ img[5] ++ img[6] ++ img[7]`. -/
def imgId (img : Image) : Word := imgByte img 4 ++ imgByte img 5 ++ imgByte img 6 ++ imgByte img 7

/-! ## Valid(img) (R241) -/

/-- V1: recognized version. -/
def validV1 (img : Image) : Bool := imgByte img 0 == Config.wireVersion

/-- V2: reserved bits clear. -/
def validV2 (img : Image) : Bool :=
  ((imgByte img 1).extractLsb' 5 3 == 0) && ((imgByte img 2).extractLsb' 4 4 == 0)
    && (imgByte img 3 == 0)

/-- V3: DLC legal for the format. -/
def validV3 (img : Image) : Bool := decide ((imgDlc img).toNat ≤ dlcMax (imgFmt img))

/-- V4: identifier within the format's width. -/
def validV4 (img : Image) : Bool := (imgId img &&& ~~~(mask (imgFmt img))) == 0

/-- V5: no unsupported flag set. -/
def validV5 (img : Image) : Bool :=
  if isFD (imgFmt img) then !(imgRtr img) else !(imgBrs img) && !(imgEsi img)

/-- V6: padding is zero. -/
def validV6 (img : Image) : Bool :=
  (List.range Config.payloadStore).all fun i =>
    decide (i < dlcToLen (imgFmt img) (imgDlc img)) || (imgByte img (8 + i) == 0)

/-- `Valid(img)`: V1 to V6 together (R241). -/
def validImage (img : Image) : Bool :=
  validV1 img && validV2 img && validV3 img && validV4 img && validV5 img && validV6 img

/-- The slot DECODE writes from a valid image (R244). -/
def slotOfImage (img : Image) : Slot where
  fmt := imgFmt img
  id := imgId img
  dlc := imgDlc img
  p := Memory.ofFn fun i => imgByte img (8 + i)
  rtr := imgRtr img
  brs := imgBrs img
  esi := imgEsi img
  marker := 0
  user := 0

end Sys2Proof.Machine
end

