-- ==== Sys2Proof/Machine/Wire.lean ====
section
/-! DEFINITION. The wire image commands (47_wire.md). -/

namespace Sys2Proof.Machine

/-- ENCODE (R243). -/
def execEncode (sl : SlotId) (s : State) : Host.Outcome State Fault Refusal :=
  .next (s.respondImage (imageOf (s.slot sl)))

/-- DECODE (R244): an image that is not valid is a protocol error, and only STATUS and RES change
(R246). -/
def execDecode (sl : SlotId) (s : State) : Host.Outcome State Fault Refusal :=
  if validImage s.imgIn then update s sl (slotOfImage s.imgIn) else .next s.raiseProtocolError

end Sys2Proof.Machine
end

