-- ==== Sys2Proof/Machine/Dispatch.lean ====
section
/-! DEFINITION. One arm per command, in the order of the opcode map (30_encoding.md R75). -/

namespace Sys2Proof.Machine

/-- The rule of the command's opcode (30_encoding.md R78). -/
def exec (i : Instr) (s : State) : Host.Outcome State Fault Refusal :=
  match i with
  | .clear sl => Sys2Proof.Machine.execClear sl s
  | .init sl f => Sys2Proof.Machine.execInit sl f s
  | .getfmt sl => Sys2Proof.Machine.execGetfmt sl s
  | .setfmt sl f => Sys2Proof.Machine.execSetfmt sl f s
  | .getid sl => Sys2Proof.Machine.execGetid sl s
  | .setid sl => Sys2Proof.Machine.execSetid sl s
  | .getdlc sl => Sys2Proof.Machine.execGetdlc sl s
  | .setdlc sl => Sys2Proof.Machine.execSetdlc sl s
  | .getsize sl => Sys2Proof.Machine.execGetsize sl s
  | .setsize sl => Sys2Proof.Machine.execSetsize sl s
  | .getb sl pos => Sys2Proof.Machine.execGetb sl pos s
  | .setb sl pos => Sys2Proof.Machine.execSetb sl pos s
  | .geth sl pos e => Sys2Proof.Machine.execGeth sl pos e s
  | .seth sl pos e => Sys2Proof.Machine.execSeth sl pos e s
  | .getw sl pos e => Sys2Proof.Machine.execGetw sl pos e s
  | .setw sl pos e => Sys2Proof.Machine.execSetw sl pos e s
  | .getrtr sl => Sys2Proof.Machine.execGetrtr sl s
  | .setrtr sl v => Sys2Proof.Machine.execSetrtr sl v s
  | .getbrs sl => Sys2Proof.Machine.execGetbrs sl s
  | .setbrs sl v => Sys2Proof.Machine.execSetbrs sl v s
  | .getesi sl => Sys2Proof.Machine.execGetesi sl s
  | .setesi sl v => Sys2Proof.Machine.execSetesi sl v s
  | .getfdf sl => Sys2Proof.Machine.execGetfdf sl s
  | .getmrk sl => Sys2Proof.Machine.execGetmrk sl s
  | .setmrk sl => Sys2Proof.Machine.execSetmrk sl s
  | .getusr sl => Sys2Proof.Machine.execGetusr sl s
  | .setusr sl => Sys2Proof.Machine.execSetusr sl s
  | .eq => Sys2Proof.Machine.execEq s
  | .encode sl => Sys2Proof.Machine.execEncode sl s
  | .decode sl => Sys2Proof.Machine.execDecode sl s

end Sys2Proof.Machine
end

