-- ==== Sys2Proof/Machine/Step.lean ====
section
/-! DEFINITION. One step: the next event of the host (00_scope.md R18; 30_encoding.md R78, R79). -/

namespace Sys2Proof.Machine

/-- A step takes the host's next event. A request is presented and its command word decoded; a legal
command runs and an illegal word is answered ILLEGAL (30_encoding.md R78). A reset resets the block
(70_reset_and_hazards.md R300). With no event the block idles (log entry 2). -/
def step (s : State) : Host.Outcome State Fault Refusal :=
  match s.host with
  | [] => .next s.idle
  | .reset :: rest => .next (s.applyReset rest)
  | .request r :: rest =>
    match decodeWord r.cmd with
    | .ok i => exec i (s.present r rest)
    | .error _ => .next (s.present r rest).raiseIllegal

/-- The state in which the host presents the word `w` next, with the operand ports as they are
(log entry 11). -/
def State.withFetchWord (s : State) (nbits w : Nat) : State :=
  s.pushCommand (BitVec.ofNat 32 (w % 2 ^ nbits))

end Sys2Proof.Machine
end

