-- ==== Sys2Proof/Safety.lean ====
section
/-! DEFINITION. The invariants and the observations that claims about the FrameCodec use. -/

namespace Sys2Proof.Machine

/-- `INV(s)` (10_state.md R30). -/
abbrev Slot.Inv (s : Slot) : Prop :=
  s.id &&& ~~~(mask s.fmt) = 0 ∧ s.dlc.toNat ≤ dlcMax s.fmt ∧
    (isFD s.fmt = true → s.rtr = false) ∧ (isFD s.fmt = false → s.brs = false ∧ s.esi = false)

/-- `INV(0)` and `INV(1)`. -/
abbrev State.Inv (s : State) : Prop :=
  s.slot0.Inv ∧ s.slot1.Inv

/-- Both payload stores are in canonical form. -/
abbrev State.storesWf (s : State) : Prop :=
  s.slot0.p.wf = true ∧ s.slot1.p.wf = true

/-- What IMG_OUT can hold: its reset value or a well-formed image. -/
abbrev State.imgOutWf (s : State) : Prop :=
  s.imgOut = zeroImage ∨ validImage s.imgOut = true

/-- The frame state of the block: its slots (20_memory.md R59). -/
def State.frames (s : State) : Slot × Slot :=
  (s.slot0, s.slot1)

/-- A run in which no command was illegal and no decode failed (60_exceptions.md R274): every
response recorded so far is OK. -/
abbrev State.noError (s : State) : Prop :=
  ∀ r ∈ s.responses, r.status = .ok

/-- The number of requests among the host's events. -/
def requestCount : List HostEvent → Nat
  | [] => 0
  | .request _ :: rest => requestCount rest + 1
  | .reset :: rest => requestCount rest

/-! ## What a command left behind -/

/-- The slot that is not `sl`. -/
def other : SlotId → SlotId
  | .s0 => .s1
  | .s1 => .s0

/-- The `SLOT` bit of `sl` in a command word (30_encoding.md R70). -/
def slotWord : SlotId → Word
  | .s0 => 0x00000000
  | .s1 => 0x00000020

/-- The `FMT` code of `f` in a command word (30_encoding.md R70; 10_state.md R21). -/
def fmtWord : Format → Word
  | .canStd => 0x00000000
  | .canExt => 0x00000040
  | .fdStd => 0x00000080
  | .fdExt => 0x000000C0

/-- The `END` bit of `e` in a command word (30_encoding.md R70). -/
def endWord : Endian → Word
  | .little => 0x00000000
  | .big => 0x00000100

/-- The `VAL` bit of `v` in a command word (30_encoding.md R70). -/
def valWord (v : Bool) : Word :=
  if v then 0x00000200 else 0x00000000

/-- The `POS` field of `pos` in a command word (30_encoding.md R70). -/
def posWord (pos : Nat) : Word :=
  BitVec.ofNat 32 (pos * 65536)

/-- From `s` to `t` one response `st`, `r` was returned (with `img` when it is ENCODE's), and the
model's own fields are otherwise as they were. -/
def Responds (s t : State) (st : Status) (r : Word) (img : Option Image) : Prop :=
  t.status = st ∧ t.res = r ∧ t.responses = { status := st, res := r, image := img } :: s.responses ∧
    t.host = s.host ∧ t.ports = s.ports

/-- From `s` to `t` no slot and no byte of IMG_OUT changed. -/
def KeepsFrames (s t : State) : Prop :=
  t.slot0 = s.slot0 ∧ t.slot1 = s.slot1 ∧ t.imgOut = s.imgOut

/-- A read: the response OK with value `r`, and nothing else changed. -/
def ReadsOnly (s t : State) (r : Word) : Prop :=
  Responds s t .ok r none ∧ KeepsFrames s t

/-- A write to slot `sl` that leaves it as `x`: the response OK with RES 0; the other slot and IMG_OUT
as they were. -/
def WritesSlot (s t : State) (sl : SlotId) (x : Slot) : Prop :=
  Responds s t .ok 0 none ∧ t.slot sl = x ∧ t.slot (other sl) = s.slot (other sl) ∧ t.imgOut = s.imgOut

/-- A write to the payload of slot `sl` after which position `a` reads `f a`: the response OK with RES
0; every other field of the slot, the other slot and IMG_OUT as they were. -/
def WritesPayload (s t : State) (sl : SlotId) (f : Nat → Byte) : Prop :=
  Responds s t .ok 0 none ∧ t.slot sl = { s.slot sl with p := (t.slot sl).p } ∧
    (∀ a, (t.slot sl).p.read a = f a) ∧ t.slot (other sl) = s.slot (other sl) ∧ t.imgOut = s.imgOut

/-- The slot a command works on; EQ names none (30_encoding.md R71). -/
def target : Instr → Option SlotId
  | .eq => none
  | .clear sl | .init sl _ | .getfmt sl | .setfmt sl _ | .getid sl | .setid sl | .getdlc sl
  | .setdlc sl | .getsize sl | .setsize sl | .getb sl _ | .setb sl _ | .geth sl _ _ | .seth sl _ _
  | .getw sl _ _ | .setw sl _ _ | .getrtr sl | .setrtr sl _ | .getbrs sl | .setbrs sl _ | .getesi sl
  | .setesi sl _ | .getfdf sl | .getmrk sl | .setmrk sl | .getusr sl | .setusr sl | .encode sl
  | .decode sl => some sl

/-- The GET commands and EQ (20_memory.md R59; 10_state.md R34). -/
def isRead : Instr → Bool
  | .getfmt _ | .getid _ | .getdlc _ | .getsize _ | .getb _ _ | .geth _ _ _ | .getw _ _ _
  | .getrtr _ | .getbrs _ | .getesi _ | .getfdf _ | .getmrk _ | .getusr _ | .eq => true
  | .clear _ | .init _ _ | .setfmt _ _ | .setid _ | .setdlc _ | .setsize _ | .setb _ _ | .seth _ _ _
  | .setw _ _ _ | .setrtr _ _ | .setbrs _ _ | .setesi _ _ | .setmrk _ | .setusr _ | .encode _
  | .decode _ => false

/-- A slot that an image determines (47_wire.md R245 (c)): `INV`, hidden bytes 0, MARKER = USER = 0,
and the store in canonical form. -/
def Slot.Bare (s : Slot) : Prop :=
  s.Inv ∧ s.p.wf = true ∧ (∀ i, s.size ≤ i → s.p.read i = 0) ∧ s.marker = 0 ∧ s.user = 0

end Sys2Proof.Machine
end

