-- ==== Sys2Proof/Certificates/Slice0/Obligations.lean ====
section
/-! DEFINITION. The statements about the FrameCodec that the provers are asked for. Each names the
rule of spec/ it formalises; where a clause is the model's own choice, the docstring says so. -/

open Sys2Proof Sys2Proof.Machine

/-! ## Reset and the step -/

/-- 10_state.md R39: every piece of state has its reset value. -/
def Obligations.ResetValues : Prop :=
  (∀ sl, (State.reset.slot sl).fmt = .canStd ∧ (State.reset.slot sl).dlc = 0 ∧
    (State.reset.slot sl).id = 0 ∧ (∀ i, (State.reset.slot sl).p.read i = 0) ∧
    (State.reset.slot sl).rtr = false ∧ (State.reset.slot sl).brs = false ∧
    (State.reset.slot sl).esi = false ∧ (State.reset.slot sl).marker = 0 ∧
    (State.reset.slot sl).user = 0 ∧ (State.reset.slot sl).fdf = false) ∧
  State.reset.status.code = 0 ∧ State.reset.res = 0 ∧
  ∀ k, k < 72 → imgByte State.reset.imgOut k = 0

/-- The three invariants of the model hold at reset. -/
def Obligations.ResetMeetsInvariants : Prop :=
  State.reset.Inv ∧ State.reset.storesWf ∧ State.reset.imgOutWf

/-- 70_reset_and_hazards.md R300: a reset that the host asserts performs CLEAR on both slots, sets
STATUS to OK and RES to 0, and zeroes IMG_OUT; then INV holds for both slots and EQ would return 1. -/
def Obligations.AssertedResetClearsTheBlock : Prop :=
  ∀ (s : State) (rest : List HostEvent), s.host = .reset :: rest →
    ∃ t, step s = .next t ∧ t.host = rest ∧
      (∀ sl, ∃ u, exec (.clear sl) s = .next u ∧ t.slot sl = u.slot sl) ∧
      t.status = .ok ∧ t.res = 0 ∧ (∀ k, k < 72 → imgByte t.imgOut k = 0) ∧ t.Inv ∧
      ∃ v, exec .eq t = .next v ∧ v.res = 1

/-- The model's own choices of log entries 2 and 5: with no event the block holds its state, and an
asserted reset keeps the record of responses and returns none. -/
def Obligations.IdleHoldsStateAndResetReturnsNoResponse : Prop :=
  (∀ s : State, s.host = [] → step s = .next s) ∧
  ∀ (s : State) (rest : List HostEvent), s.host = .reset :: rest →
    ∃ t, step s = .next t ∧ t.responses = s.responses ∧ t.ports = s.ports

/-- A step on a request whose word decodes to `i` is `exec i` with the request on the ports and the
host's list moved on (30_encoding.md, rules of the step; log entry 1). -/
def Obligations.StepRunsTheDecodedCommand : Prop :=
  ∀ (s : State) (r : Request) (rest : List HostEvent) (i : Instr),
    s.host = .request r :: rest → decodeWord r.cmd = .ok i →
      step s = exec i { s with host := rest, ports := r }

/-- Log entry 11: a word placed by `withFetchWord` is the request the very next step runs, with the
operand ports as they were and the rest of the host's list waiting. -/
def Obligations.PlacedWordRunsNext : Prop :=
  ∀ (s : State) (w : Nat) (i : Instr), decodeTableWord 32 w = some i →
    step (s.withFetchWord 32 w) = exec i { s with ports := { s.ports with cmd := BitVec.ofNat 32 w } }

/-- 60_exceptions.md R270: a word with OPC 0x00 or 0x1F or a nonzero reserved field is answered
ILLEGAL, status code 1, with RES 0, whatever the other ports hold, and neither slot nor IMG_OUT
changes. -/
def Obligations.IllegalWordIsAnsweredIllegal : Prop :=
  Status.illegal.code = 1 ∧
  ∀ (s : State) (r : Request) (rest : List HostEvent), s.host = .request r :: rest →
    (r.cmd.extractLsb' 0 5 = 0x00 ∨ r.cmd.extractLsb' 0 5 = 0x1F ∨
      r.cmd.extractLsb' 10 6 ≠ 0 ∨ r.cmd.extractLsb' 24 8 ≠ 0) →
    ∃ t, step s = .next t ∧ t.status = .illegal ∧ t.res = 0 ∧ KeepsFrames s t ∧ t.host = rest ∧
      t.responses = { status := .illegal, res := 0, image := none } :: s.responses

/-- The request ports are no state (10_state.md, interface registers; log entry 3): the step on a request
does not depend on what the ports held before it. -/
def Obligations.PortsCarryNothingBetweenCommands : Prop :=
  ∀ (s : State) (r p : Request) (rest : List HostEvent), s.host = .request r :: rest →
    step { s with ports := p } = step s

/-- 10_state.md R33: STATUS (codes 0, 1, 2) and RES are overwritten by every command, an illegal one
included, whatever they held; IMG_OUT is written only by ENCODE and holds its value otherwise. -/
def Obligations.ResponseRegistersAreOverwritten : Prop :=
  Status.ok.code = 0 ∧ Status.illegal.code = 1 ∧ Status.protocolError.code = 2 ∧
  (∀ st : Status, st.code ≠ 3) ∧
  (∀ (s : State) (r : Request) (rest : List HostEvent) (st : Status) (x : Word),
    s.host = .request r :: rest → step { s with status := st, res := x } = step s) ∧
  ∀ (s t : State) (r : Request) (rest : List HostEvent),
    s.host = .request r :: rest → step s = .next t →
      (∀ sl, decodeWord r.cmd ≠ .ok (.encode sl)) → t.imgOut = s.imgOut

/-- An inference the spec marks as its own (60_exceptions.md, error causes: "Every legal or illegal
command completes in one step with a response, from every state"). That a step with no waiting event
answers too is log entry 2. -/
def Obligations.EveryStepAnswers : Prop :=
  (∀ s : State, ∃ t, step s = .next t) ∧
  ∀ (s : State) (r : Request) (rest : List HostEvent), s.host = .request r :: rest →
    ∃ t img, step s = .next t ∧ t.host = rest ∧
      t.responses = { status := t.status, res := t.res, image := img } :: s.responses

/-- A run with one step for each of the host's events ends with no event left and with exactly one
more response for each request: no request is lost, blocks or is answered twice (30_encoding.md,
decode and dispatch: "No operation blocks indefinitely"; the record is log entry 4). -/
def Obligations.RunAnswersEveryRequestOnce : Prop :=
  ∀ s : State, ∃ t, Sys2Proof.core.run s.host.length s = .next t ∧ t.host = [] ∧
    t.responses.length = s.responses.length + requestCount s.host

/-- 60_exceptions.md R271 and R272, which status a command gives: every command answers a next state
with OK, on all operands, but for DECODE of an image that is not valid, which answers PROTOCOL_ERROR. -/
def Obligations.OnlyDecodeReportsProtocolError : Prop :=
  (∀ (i : Instr) (s : State), ∃ t, exec i s = .next t ∧
    (t.status = .ok ∨
      t.status = .protocolError ∧ (∃ sl, i = .decode sl) ∧ validImage s.ports.imgIn = false)) ∧
  ∀ (sl : SlotId) (s : State), validImage s.ports.imgIn = false →
    ∃ t, exec (.decode sl) s = .next t ∧ t.status = .protocolError

/-- RES is 0 after every command that is not a GET or EQ, and after every answer that is not OK
(10_state.md, interface registers). -/
def Obligations.ResIsZeroUnlessAReadSucceeds : Prop :=
  ∀ (s t : State) (r : Request) (rest : List HostEvent),
    s.host = .request r :: rest → step s = .next t →
      (∀ i, decodeWord r.cmd = .ok i → isRead i = false) ∨ t.status ≠ .ok → t.res = 0

/-! ## Encoding -/

/-- 30_encoding.md R75: a word selects the row whose OPC equals `CMD[4:0]` provided
`CMD & 0xFF00FC00 = 0`; one clause per row, each with the fields its format reads. -/
def Obligations.OpcodeMapRows : Prop :=
  ∀ w : Word,
    let m := w &&& 0xFF00FC1F
    let sl : SlotId := if w.getLsbD 5 then .s1 else .s0
    let f : Format := if w.getLsbD 7 then (if w.getLsbD 6 then .fdExt else .fdStd)
      else (if w.getLsbD 6 then .canExt else .canStd)
    let e : Endian := if w.getLsbD 8 then .big else .little
    let v : Bool := w.getLsbD 9
    let pos : Nat := (w >>> 16).toNat % 256
    (w &&& 0xFF00FC00 ≠ 0 → decodeWord w = .error .reservedBits) ∧
    (m = 0x00 → decodeWord w = .error .reservedOpcode) ∧
    (m = 0x01 → decodeWord w = .ok (.clear sl)) ∧
    (m = 0x02 → decodeWord w = .ok (.init sl f)) ∧
    (m = 0x03 → decodeWord w = .ok (.getfmt sl)) ∧
    (m = 0x04 → decodeWord w = .ok (.setfmt sl f)) ∧
    (m = 0x05 → decodeWord w = .ok (.getid sl)) ∧
    (m = 0x06 → decodeWord w = .ok (.setid sl)) ∧
    (m = 0x07 → decodeWord w = .ok (.getdlc sl)) ∧
    (m = 0x08 → decodeWord w = .ok (.setdlc sl)) ∧
    (m = 0x09 → decodeWord w = .ok (.getsize sl)) ∧
    (m = 0x0A → decodeWord w = .ok (.setsize sl)) ∧
    (m = 0x0B → decodeWord w = .ok (.getb sl pos)) ∧
    (m = 0x0C → decodeWord w = .ok (.setb sl pos)) ∧
    (m = 0x0D → decodeWord w = .ok (.geth sl pos e)) ∧
    (m = 0x0E → decodeWord w = .ok (.seth sl pos e)) ∧
    (m = 0x0F → decodeWord w = .ok (.getw sl pos e)) ∧
    (m = 0x10 → decodeWord w = .ok (.setw sl pos e)) ∧
    (m = 0x11 → decodeWord w = .ok (.getrtr sl)) ∧
    (m = 0x12 → decodeWord w = .ok (.setrtr sl v)) ∧
    (m = 0x13 → decodeWord w = .ok (.getbrs sl)) ∧
    (m = 0x14 → decodeWord w = .ok (.setbrs sl v)) ∧
    (m = 0x15 → decodeWord w = .ok (.getesi sl)) ∧
    (m = 0x16 → decodeWord w = .ok (.setesi sl v)) ∧
    (m = 0x17 → decodeWord w = .ok (.getfdf sl)) ∧
    (m = 0x18 → decodeWord w = .ok (.getmrk sl)) ∧
    (m = 0x19 → decodeWord w = .ok (.setmrk sl)) ∧
    (m = 0x1A → decodeWord w = .ok (.getusr sl)) ∧
    (m = 0x1B → decodeWord w = .ok (.setusr sl)) ∧
    (m = 0x1C → decodeWord w = .ok .eq) ∧
    (m = 0x1D → decodeWord w = .ok (.encode sl)) ∧
    (m = 0x1E → decodeWord w = .ok (.decode sl)) ∧
    (m = 0x1F → decodeWord w = .error .reservedOpcode)

/-- The illegal words are exactly OPC 0x00, OPC 0x1F and a nonzero reserved field (30_encoding.md,
reserved encodings; that every other word is legal is an inference the spec marks as its own: "Every
one of the 2^32 command words is either one of the 30 legal commands"); an illegal word is answered
ILLEGAL with RES 0 and changes nothing else of the block. -/
def Obligations.IllegalWordsAreExactlyTheReservedOnes : Prop :=
  (∀ w : Word, (∃ e, decodeWord w = .error e) ↔
    (w.extractLsb' 0 5 = 0x00 ∨ w.extractLsb' 0 5 = 0x1F ∨
      w.extractLsb' 10 6 ≠ 0 ∨ w.extractLsb' 24 8 ≠ 0)) ∧
  ∀ (s : State) (r : Request) (rest : List HostEvent) (e : DecodeError),
    s.host = .request r :: rest → decodeWord r.cmd = .error e →
      ∃ t, step s = .next t ∧ t.status = .illegal ∧ t.res = 0 ∧ KeepsFrames s t

/-- A few words written out from the spec's encodings (40_construct.md to 47_wire.md). -/
def Obligations.WordsOfTheSpecDecode : Prop :=
  decodeWord 0x00000021 = .ok (.clear .s1) ∧
  decodeWord 0x000000E2 = .ok (.init .s1 .fdExt) ∧
  decodeWord 0x00000044 = .ok (.setfmt .s0 .canExt) ∧
  decodeWord 0x00000006 = .ok (.setid .s0) ∧
  decodeWord 0x0000000A = .ok (.setsize .s0) ∧
  decodeWord 0x003F000C = .ok (.setb .s0 63) ∧
  decodeWord 0x0007010D = .ok (.geth .s0 7 .big) ∧
  decodeWord 0x00040010 = .ok (.setw .s0 4 .little) ∧
  decodeWord 0x00000212 = .ok (.setrtr .s0 true) ∧
  decodeWord 0x00000039 = .ok (.setmrk .s1) ∧
  decodeWord 0x0000001C = .ok .eq ∧
  decodeWord 0x0000003E = .ok (.decode .s1)

/-- Decode and encode agree on every well-formed instruction, every operand at every value its field
admits (30_encoding.md, format of a command and opcode map). -/
def Obligations.DecodeOfEncode : Prop :=
  ∀ i : Instr, i.wellFormed = true → decodeWord (encode i) = .ok i

/-- Encoding the instruction a legal word decodes to gives the word back with its ignored fields 0, and
that instruction is well-formed (30_encoding.md, opcode map and ignored fields). -/
def Obligations.EncodeOfDecode : Prop :=
  ∀ (w : Word) (i : Instr), decodeWord w = .ok i →
    i.wellFormed = true ∧ encode i = w &&& fieldMask i

/-- 30_encoding.md R72: the fields of the command word that a command's format does not read do not
change what it decodes to, and the operand ports it does not read do not change its result or the
state; the reserved fields are the only ones checked whatever the opcode. -/
def Obligations.IgnoredFieldsAndPortsHaveNoEffect : Prop :=
  (∀ (w w' : Word) (i : Instr), decodeWord w = .ok i →
    w' &&& 0xFF00FC00 = 0 → w' &&& fieldMask i = w &&& fieldMask i → decodeWord w' = .ok i) ∧
  (∀ w : Word, w &&& 0xFF00FC00 ≠ 0 → decodeWord w = .error .reservedBits) ∧
  ∀ (i : Instr) (s : State) (p : Request),
    (readsArg0 i = true → p.arg0 = s.ports.arg0) → (readsArg1 i = true → p.arg1 = s.ports.arg1) →
    (readsImgIn i = true → p.imgIn = s.ports.imgIn) →
      ∃ t, exec i s = .next t ∧ exec i { s with ports := p } = .next { t with ports := p }

/-! ## Invariants of every step -/

/-- INV holds for both slots after reset and every step preserves it: an inference the spec marks as
its own (10_state.md, the slot invariant: "Every command preserves it"). -/
def Obligations.SlotInvariantIsKept : Prop :=
  State.reset.Inv ∧ ∀ s t : State, s.Inv → step s = .next t → t.Inv

/-- Every step keeps both payload stores in canonical form, from every state (the form is the model's,
log entry 13). -/
def Obligations.PayloadStoresStayCanonical : Prop :=
  ∀ s t : State, s.storesWf → step s = .next t → t.storesWf

/-- IMG_OUT always holds its reset value or a well-formed image (47_wire.md, the image and ENCODE). -/
def Obligations.ImgOutStaysWellFormed : Prop :=
  ∀ s t : State, s.Inv → s.imgOutWf → step s = .next t → t.imgOutWf

/-- A GET command and EQ leave both slots unchanged and write only STATUS and RES; every command is
idempotent on frame state, so the same request twice leaves the slots as once. An inference the spec
marks as its own (20_memory.md, side effects: "Every command is idempotent on frame state"); the
premise on the payload stores is the invariant PayloadStoresStayCanonical (log entry 13). -/
def Obligations.ReadsHaveNoSideEffectAndCommandsAreIdempotent : Prop :=
  (∀ (i : Instr) (s : State), isRead i = true → ∃ t r, exec i s = .next t ∧ ReadsOnly s t r) ∧
  ∀ (s : State) (r : Request) (rest : List HostEvent), s.storesWf →
    s.host = .request r :: .request r :: rest →
      ∃ t u, step s = .next t ∧ step t = .next u ∧ u.frames = t.frames

/-- No command but EQ reads the slot it does not work on, and no command writes it: replacing the other
slot before the command and after it is the same (10_state.md, frame slots). -/
def Obligations.SlotsAreIndependent : Prop :=
  ∀ (i : Instr) (sl : SlotId) (s : State) (x : Slot), target i = some sl →
    ∃ t, exec i s = .next t ∧ t.slot (other sl) = s.slot (other sl) ∧
      exec i (s.setSlot (other sl) x) = .next (t.setSlot (other sl) x)

/-- Which commands can change each field (10_state.md, the "writable by" column and R22 to R28): a
field that differs after a command was written by one of the commands named for it. -/
def Obligations.EachFieldHasItsWriters : Prop :=
  ∀ (i : Instr) (s t : State) (sl : SlotId), exec i s = .next t →
    let fresh := i = .clear sl ∨ (∃ f, i = .init sl f) ∨ i = .decode sl
    ((t.slot sl).fmt ≠ (s.slot sl).fmt → fresh ∨ ∃ f, i = .setfmt sl f) ∧
    ((t.slot sl).id ≠ (s.slot sl).id → fresh ∨ i = .setid sl ∨ ∃ f, i = .setfmt sl f) ∧
    ((t.slot sl).dlc ≠ (s.slot sl).dlc →
      fresh ∨ i = .setdlc sl ∨ i = .setsize sl ∨ ∃ f, i = .setfmt sl f) ∧
    ((t.slot sl).p ≠ (s.slot sl).p →
      fresh ∨ (∃ pos, i = .setb sl pos) ∨ (∃ pos e, i = .seth sl pos e) ∨ ∃ pos e, i = .setw sl pos e) ∧
    ((t.slot sl).rtr ≠ (s.slot sl).rtr → fresh ∨ (∃ v, i = .setrtr sl v) ∨ ∃ f, i = .setfmt sl f) ∧
    ((t.slot sl).brs ≠ (s.slot sl).brs → fresh ∨ (∃ v, i = .setbrs sl v) ∨ ∃ f, i = .setfmt sl f) ∧
    ((t.slot sl).esi ≠ (s.slot sl).esi → fresh ∨ (∃ v, i = .setesi sl v) ∨ ∃ f, i = .setfmt sl f) ∧
    ((t.slot sl).marker ≠ (s.slot sl).marker → fresh ∨ i = .setmrk sl) ∧
    ((t.slot sl).user ≠ (s.slot sl).user → fresh ∨ i = .setusr sl) ∧
    (t.imgOut ≠ s.imgOut → ∃ sl', i = .encode sl')

/-! ## Construction -/

/-- 40_construct.md R100: CLEAR constructs an empty frame, from every state. -/
def Obligations.ClearConstructsTheEmptyFrame : Prop :=
  (∀ sl, decodeWord (0x00000001 ||| slotWord sl) = .ok (.clear sl)) ∧
  ∀ (sl : SlotId) (s : State), ∃ t, exec (.clear sl) s = .next t ∧
    WritesSlot s t sl (t.slot sl) ∧ (t.slot sl).fmt = .canStd ∧ (t.slot sl).dlc = 0 ∧
    (t.slot sl).id = 0 ∧ (∀ i, (t.slot sl).p.read i = 0) ∧ (t.slot sl).rtr = false ∧
    (t.slot sl).brs = false ∧ (t.slot sl).esi = false ∧ (t.slot sl).marker = 0 ∧
    (t.slot sl).user = 0 ∧ (t.slot sl).size = 0

/-- 40_construct.md R101: INIT constructs a frame with format `f`, identifier ARG0 masked and DLC ARG1
clamped, everything else 0. -/
def Obligations.InitConstructsTheFrame : Prop :=
  (∀ sl f, decodeWord (0x00000002 ||| fmtWord f ||| slotWord sl) = .ok (.init sl f)) ∧
  ∀ (sl : SlotId) (f : Format) (s : State), ∃ t, exec (.init sl f) s = .next t ∧
    WritesSlot s t sl (t.slot sl) ∧ (t.slot sl).fmt = f ∧
    (t.slot sl).id = s.ports.arg0 &&& (if isExt f then 0x1FFFFFFF else 0x000007FF) ∧
    (t.slot sl).dlc.toNat = min s.ports.arg1.toNat (if isFD f then 15 else 8) ∧
    (∀ i, (t.slot sl).p.read i = 0) ∧ (t.slot sl).rtr = false ∧ (t.slot sl).brs = false ∧
    (t.slot sl).esi = false ∧ (t.slot sl).marker = 0 ∧ (t.slot sl).user = 0

/-- INIT of CAN_STD with both operands 0 leaves the same slots as CLEAR: an inference the spec marks as
its own (40_construct.md, INIT, corner cases: "leaves the same slot state as CLEAR"). -/
def Obligations.InitOfZerosIsClear : Prop :=
  ∀ (sl : SlotId) (s : State), s.ports.arg0 = 0 → s.ports.arg1 = 0 →
    ∃ t u, exec (.init sl .canStd) s = .next t ∧ exec (.clear sl) s = .next u ∧ t.frames = u.frames

/-! ## Format, identifier, length -/

/-- 41_format.md R120, 42_identifier.md R140, 43_length.md R162 and R165: GETFMT, GETID, GETDLC and
GETSIZE return the field; with INV, the identifier is within the mask, the DLC within the family's
maximum, and the size an entry of the table, at most 8 for classic. -/
def Obligations.FrameFieldsAreRead : Prop :=
  (∀ sl, decodeWord (0x00000003 ||| slotWord sl) = .ok (.getfmt sl) ∧
    decodeWord (0x00000005 ||| slotWord sl) = .ok (.getid sl) ∧
    decodeWord (0x00000007 ||| slotWord sl) = .ok (.getdlc sl) ∧
    decodeWord (0x00000009 ||| slotWord sl) = .ok (.getsize sl)) ∧
  ∀ (sl : SlotId) (s : State),
    (∃ t, exec (.getfmt sl) s = .next t ∧ ReadsOnly s t t.res ∧
      t.res = (match (s.slot sl).fmt with | .canStd => 0 | .canExt => 1 | .fdStd => 2 | .fdExt => 3)) ∧
    (∃ t, exec (.getid sl) s = .next t ∧ ReadsOnly s t (s.slot sl).id ∧
      (s.Inv → t.res.toNat ≤ (mask (s.slot sl).fmt).toNat)) ∧
    (∃ t, exec (.getdlc sl) s = .next t ∧ ReadsOnly s t t.res ∧ t.res.toNat = (s.slot sl).dlc.toNat ∧
      (s.Inv → t.res.toNat ≤ if isFD (s.slot sl).fmt then 15 else 8)) ∧
    ∃ t, exec (.getsize sl) s = .next t ∧ ReadsOnly s t t.res ∧
      t.res.toNat = dlcToLen (s.slot sl).fmt (s.slot sl).dlc ∧
      (s.Inv → t.res.toNat ∈ [0, 1, 2, 3, 4, 5, 6, 7, 8, 12, 16, 20, 24, 32, 48, 64] ∧
        (isFD (s.slot sl).fmt = false → t.res.toNat ≤ 8))

/-- 41_format.md R121: SETFMT changes the format and keeps the frame consistent: on a change of family
RTR, BRS and ESI are cleared, an FD to classic change clamps the DLC to 8, the identifier is masked to
the new width, and the payload, MARKER and USER are kept; with INV, SETFMT to the format the slot has
changes nothing of the slot. -/
def Obligations.SetFormatKeepsTheFrameConsistent : Prop :=
  (∀ sl f, decodeWord (0x00000004 ||| fmtWord f ||| slotWord sl) = .ok (.setfmt sl f)) ∧
  (∀ (sl : SlotId) (f : Format) (s : State), ∃ t, exec (.setfmt sl f) s = .next t ∧
    WritesSlot s t sl (t.slot sl) ∧ (t.slot sl).fmt = f ∧ (t.slot sl).fdf = isFD f ∧
    (t.slot sl).id = (s.slot sl).id &&& (if isExt f then 0x1FFFFFFF else 0x000007FF) ∧
    (isFD (s.slot sl).fmt ≠ isFD f →
      (t.slot sl).rtr = false ∧ (t.slot sl).brs = false ∧ (t.slot sl).esi = false) ∧
    (isFD (s.slot sl).fmt = isFD f → (t.slot sl).rtr = (s.slot sl).rtr ∧
      (t.slot sl).brs = (s.slot sl).brs ∧ (t.slot sl).esi = (s.slot sl).esi) ∧
    (isFD (s.slot sl).fmt = true ∧ isFD f = false ∧ (s.slot sl).dlc.toNat > 8 →
      (t.slot sl).dlc = 8) ∧
    (¬(isFD (s.slot sl).fmt = true ∧ isFD f = false ∧ (s.slot sl).dlc.toNat > 8) →
      (t.slot sl).dlc = (s.slot sl).dlc) ∧
    (t.slot sl).p = (s.slot sl).p ∧ (t.slot sl).marker = (s.slot sl).marker ∧
    (t.slot sl).user = (s.slot sl).user) ∧
  ∀ (sl : SlotId) (s : State), s.Inv →
    ∃ t, exec (.setfmt sl (s.slot sl).fmt) s = .next t ∧ t.frames = s.frames

/-- 42_identifier.md R141: SETID stores ARG0 masked to the format's width and changes no other field;
GETID after it returns the masked value. -/
def Obligations.SetIdMasksTheIdentifier : Prop :=
  (∀ sl, decodeWord (0x00000006 ||| slotWord sl) = .ok (.setid sl)) ∧
  ∀ (sl : SlotId) (s : State), ∃ t, exec (.setid sl) s = .next t ∧
    WritesSlot s t sl { s.slot sl with
      id := s.ports.arg0 &&& (if isExt (s.slot sl).fmt then 0x1FFFFFFF else 0x000007FF) } ∧
    ∃ u, exec (.getid sl) t = .next u ∧
      u.res = s.ports.arg0 &&& (if isExt (s.slot sl).fmt then 0x1FFFFFFF else 0x000007FF)

/-- 43_length.md R163: SETDLC stores ARG0 clamped to 8 (classic) or 15 (FD) and changes no
other field; the payload store is not written. -/
def Obligations.SetDlcClamps : Prop :=
  (∀ sl, decodeWord (0x00000008 ||| slotWord sl) = .ok (.setdlc sl)) ∧
  ∀ (sl : SlotId) (s : State), ∃ t, exec (.setdlc sl) s = .next t ∧
    WritesSlot s t sl { s.slot sl with dlc := (t.slot sl).dlc } ∧
    (t.slot sl).dlc.toNat = min s.ports.arg0.toNat (if isFD (s.slot sl).fmt then 15 else 8)

/-- 43_length.md R166: SETSIZE stores `lenToDlc(FMT, ARG0)`, a DLC of the family, and changes no other
field; the payload store is not written. -/
def Obligations.SetSizeStoresTheDlc : Prop :=
  (∀ sl, decodeWord (0x0000000A ||| slotWord sl) = .ok (.setsize sl)) ∧
  ∀ (sl : SlotId) (s : State), ∃ t, exec (.setsize sl) s = .next t ∧
    WritesSlot s t sl { s.slot sl with dlc := lenToDlc (s.slot sl).fmt s.ports.arg0.toNat } ∧
    (t.slot sl).dlc.toNat ≤ (if isFD (s.slot sl).fmt then 15 else 8)

/-- The size after SETSIZE is at least `min(n, LEN_MAX)` and is the smallest table entry with that
property: an inference the spec marks as its own (43_length.md, SETSIZE, corner cases: "is the smallest
table entry with that property"). -/
def Obligations.SetSizeSnapsUpward : Prop :=
  ∀ (sl : SlotId) (s : State), ∃ t, exec (.setsize sl) s = .next t ∧
    min s.ports.arg0.toNat (if isFD (s.slot sl).fmt then 64 else 8) ≤ (t.slot sl).size ∧
    ∀ d : BitVec 4, d.toNat ≤ (if isFD (s.slot sl).fmt then 15 else 8) →
      min s.ports.arg0.toNat (if isFD (s.slot sl).fmt then 64 else 8) ≤ dlcToLen (s.slot sl).fmt d →
        (t.slot sl).size ≤ dlcToLen (s.slot sl).fmt d

/-- 43_length.md R160: the table, for every DLC that is not a dash. -/
def Obligations.DlcToLengthTable : Prop :=
  ∀ (f : Format) (d : BitVec 4),
    (d.toNat ≤ 8 → dlcToLen f d = d.toNat) ∧
    (isFD f = true → (d = 9 → dlcToLen f d = 12) ∧ (d = 10 → dlcToLen f d = 16) ∧
      (d = 11 → dlcToLen f d = 20) ∧ (d = 12 → dlcToLen f d = 24) ∧ (d = 13 → dlcToLen f d = 32) ∧
      (d = 14 → dlcToLen f d = 48) ∧ (d = 15 → dlcToLen f d = 64))

/-- 43_length.md R161: the inverse, for every u32 byte count. -/
def Obligations.LengthToDlcTable : Prop :=
  ∀ (f : Format) (n : Nat),
    (isFD f = false → (lenToDlc f n).toNat = min n 8) ∧
    (isFD f = true →
      (n ≤ 8 → (lenToDlc f n).toNat = n) ∧ (8 < n ∧ n ≤ 12 → lenToDlc f n = 9) ∧
      (12 < n ∧ n ≤ 16 → lenToDlc f n = 10) ∧ (16 < n ∧ n ≤ 20 → lenToDlc f n = 11) ∧
      (20 < n ∧ n ≤ 24 → lenToDlc f n = 12) ∧ (24 < n ∧ n ≤ 32 → lenToDlc f n = 13) ∧
      (32 < n ∧ n ≤ 48 → lenToDlc f n = 14) ∧ (48 < n → lenToDlc f n = 15))

/-- The two round-trip laws of the table, and the commands' form of the first: a SETDLC, then a GETSIZE,
then a SETSIZE of that size leaves the DLC unchanged. An inference the spec marks as its own
(43_length.md, last rule: "Two round-trip laws hold, for every format"). -/
def Obligations.DlcAndLengthRoundTrip : Prop :=
  (∀ (f : Format) (d : Nat),
    (lenToDlc f (dlcToLen f (BitVec.ofNat 4 (min d (dlcMax f))))).toNat = min d (dlcMax f)) ∧
  (∀ (f : Format) (n : Nat), min n (lenMax f) ≤ dlcToLen f (lenToDlc f n)) ∧
  ∀ (sl : SlotId) (s : State), ∃ t u v, exec (.setdlc sl) s = .next t ∧
    exec (.getsize sl) t = .next u ∧
    exec (.setsize sl) { u with ports := { u.ports with arg0 := u.res } } = .next v ∧
    (v.slot sl).dlc = (t.slot sl).dlc

/-! ## Payload -/

/-- 44_payload.md R180: GETB returns the byte at `pos` when `pos < size(s)`, else 0. -/
def Obligations.GetByteReadsVisibleBytes : Prop :=
  (∀ sl pos, pos < 256 →
    decodeWord (0x0000000B ||| posWord pos ||| slotWord sl) = .ok (.getb sl pos)) ∧
  ∀ (sl : SlotId) (pos : Nat) (s : State), ∃ t, exec (.getb sl pos) s = .next t ∧
    ReadsOnly s t t.res ∧
    (pos < (s.slot sl).size → t.res = ((s.slot sl).p.read pos).setWidth 32) ∧
    ((s.slot sl).size ≤ pos → t.res = 0) ∧ (64 ≤ pos → t.res = 0)

/-- 44_payload.md R182: GETH returns the two bytes at `pos` in the order `END` names, or 0 when the
access is not in range. -/
def Obligations.GetHalfReadsTwoBytes : Prop :=
  (∀ sl pos e, pos < 256 →
    decodeWord (0x0000000D ||| posWord pos ||| endWord e ||| slotWord sl) = .ok (.geth sl pos e)) ∧
  ∀ (sl : SlotId) (pos : Nat) (e : Endian) (s : State), ∃ t, exec (.geth sl pos e) s = .next t ∧
    ReadsOnly s t t.res ∧ t.res.toNat ≤ 0xFFFF ∧
    ((s.slot sl).size < pos + 2 → t.res = 0) ∧
    (pos + 2 ≤ (s.slot sl).size → e = .big → t.res = ((s.slot sl).p.read pos ++
      (s.slot sl).p.read (pos + 1) : BitVec 16).setWidth 32) ∧
    (pos + 2 ≤ (s.slot sl).size → e = .little → t.res = ((s.slot sl).p.read (pos + 1) ++
      (s.slot sl).p.read pos : BitVec 16).setWidth 32)

/-- 44_payload.md R184: GETW returns the four bytes at `pos` in the order `END` names, or 0 when the
access is not in range. -/
def Obligations.GetWordReadsFourBytes : Prop :=
  (∀ sl pos e, pos < 256 →
    decodeWord (0x0000000F ||| posWord pos ||| endWord e ||| slotWord sl) = .ok (.getw sl pos e)) ∧
  ∀ (sl : SlotId) (pos : Nat) (e : Endian) (s : State), ∃ t, exec (.getw sl pos e) s = .next t ∧
    ReadsOnly s t t.res ∧
    ((s.slot sl).size < pos + 4 → t.res = 0) ∧
    (pos + 4 ≤ (s.slot sl).size → e = .big → t.res = ((s.slot sl).p.read pos ++
      (s.slot sl).p.read (pos + 1) ++ (s.slot sl).p.read (pos + 2) ++
      (s.slot sl).p.read (pos + 3) : BitVec 32)) ∧
    (pos + 4 ≤ (s.slot sl).size → e = .little → t.res = ((s.slot sl).p.read (pos + 3) ++
      (s.slot sl).p.read (pos + 2) ++ (s.slot sl).p.read (pos + 1) ++
      (s.slot sl).p.read pos : BitVec 32))

/-- 44_payload.md R181: SETB writes `ARG0[7:0]` to the byte at `pos` when `pos < size(s)` and nothing
otherwise; every other byte and field is kept. -/
def Obligations.SetByteWritesOneVisibleByte : Prop :=
  (∀ sl pos, pos < 256 →
    decodeWord (0x0000000C ||| posWord pos ||| slotWord sl) = .ok (.setb sl pos)) ∧
  ∀ (sl : SlotId) (pos : Nat) (s : State), ∃ t, exec (.setb sl pos) s = .next t ∧
    WritesPayload s t sl fun a =>
      if pos < (s.slot sl).size ∧ a = pos then s.ports.arg0.extractLsb' 0 8 else (s.slot sl).p.read a

/-- 44_payload.md R183: SETH writes `ARG0[15:0]` to the two bytes at `pos` in the order `END` names
when both are in range and neither otherwise; every other byte and field is kept. -/
def Obligations.SetHalfWritesTwoBytes : Prop :=
  (∀ sl pos e, pos < 256 →
    decodeWord (0x0000000E ||| posWord pos ||| endWord e ||| slotWord sl) = .ok (.seth sl pos e)) ∧
  ∀ (sl : SlotId) (pos : Nat) (e : Endian) (s : State), ∃ t, exec (.seth sl pos e) s = .next t ∧
    WritesPayload s t sl fun a =>
      if pos + 2 ≤ (s.slot sl).size ∧ a = pos then
        (if e = .big then s.ports.arg0.extractLsb' 8 8 else s.ports.arg0.extractLsb' 0 8)
      else if pos + 2 ≤ (s.slot sl).size ∧ a = pos + 1 then
        (if e = .big then s.ports.arg0.extractLsb' 0 8 else s.ports.arg0.extractLsb' 8 8)
      else (s.slot sl).p.read a

/-- 44_payload.md R185: SETW writes ARG0 to the four bytes at `pos` in the order `END` names when all
are in range and none otherwise; every other byte and field is kept. -/
def Obligations.SetWordWritesFourBytes : Prop :=
  (∀ sl pos e, pos < 256 →
    decodeWord (0x00000010 ||| posWord pos ||| endWord e ||| slotWord sl) = .ok (.setw sl pos e)) ∧
  ∀ (sl : SlotId) (pos : Nat) (e : Endian) (s : State), ∃ t, exec (.setw sl pos e) s = .next t ∧
    WritesPayload s t sl fun a =>
      if pos + 4 ≤ (s.slot sl).size ∧ pos ≤ a ∧ a < pos + 4 then
        (if e = .big then s.ports.arg0.extractLsb' (8 * (pos + 3 - a)) 8
          else s.ports.arg0.extractLsb' (8 * (a - pos)) 8)
      else (s.slot sl).p.read a

/-- 20_memory.md R51: an access whose bytes are not all in range reads 0 or writes nothing, whole, with
status OK. -/
def Obligations.OutOfRangeAccessIsSilent : Prop :=
  ∀ (sl : SlotId) (pos : Nat) (e : Endian) (s : State),
    ((s.slot sl).size < pos + 1 →
      (∃ t, exec (.getb sl pos) s = .next t ∧ ReadsOnly s t 0) ∧
      ∃ t, exec (.setb sl pos) s = .next t ∧ ReadsOnly s t 0) ∧
    ((s.slot sl).size < pos + 2 →
      (∃ t, exec (.geth sl pos e) s = .next t ∧ ReadsOnly s t 0) ∧
      ∃ t, exec (.seth sl pos e) s = .next t ∧ ReadsOnly s t 0) ∧
    ((s.slot sl).size < pos + 4 →
      (∃ t, exec (.getw sl pos e) s = .next t ∧ ReadsOnly s t 0) ∧
      ∃ t, exec (.setw sl pos e) s = .next t ∧ ReadsOnly s t 0)

/-- After SETW, GETW in the same order returns the value, and in the other order the value
byte-reversed: an inference the spec marks as its own (44_payload.md, SETW, corner cases: "Reading back
with the other `end` returns `v` byte-reversed"). -/
def Obligations.SetWordReadsBack : Prop :=
  ∀ (sl : SlotId) (pos : Nat) (e e' : Endian) (s : State), pos + 4 ≤ (s.slot sl).size →
    ∃ t u, exec (.setw sl pos e) s = .next t ∧ exec (.getw sl pos e') t = .next u ∧
      u.res = (if e = e' then s.ports.arg0 else s.ports.arg0.extractLsb' 0 8 ++
        s.ports.arg0.extractLsb' 8 8 ++ s.ports.arg0.extractLsb' 16 8 ++ s.ports.arg0.extractLsb' 24 8)

/-- A narrower access sees the bytes a wider one wrote: after SETW, GETB of each of its bytes and GETH
of each pair return those bytes. The spec's own inference (20_memory.md, byte order: "A mixed-width
access sees the bytes"). -/
def Obligations.MixedWidthAccessSeesTheBytes : Prop :=
  ∀ (sl : SlotId) (pos k : Nat) (e e' : Endian) (s : State), pos + 4 ≤ (s.slot sl).size →
    let byteAt : Nat → Byte := fun j =>
      if e = .big then s.ports.arg0.extractLsb' (8 * (3 - j)) 8 else s.ports.arg0.extractLsb' (8 * j) 8
    ∃ t, exec (.setw sl pos e) s = .next t ∧
      (k < 4 → ∃ u, exec (.getb sl (pos + k)) t = .next u ∧ u.res = (byteAt k).setWidth 32) ∧
      (k < 3 → ∃ u, exec (.geth sl (pos + k) e') t = .next u ∧
        u.res = (if e' = .big then byteAt k ++ byteAt (k + 1)
          else byteAt (k + 1) ++ byteAt k : BitVec 16).setWidth 32)

/-- 10_state.md R31: a hidden byte reads as 0 and is sent as 0; the hidden bytes are not observed by
GETB, GETH, GETW, ENCODE or EQ; and SETDLC, SETSIZE and SETFMT keep them, so that they are visible again
when the size grows. -/
def Obligations.HiddenBytesAreRetainedAndUnobserved : Prop :=
  (∀ (sl : SlotId) (a : Nat) (e : Endian) (s : State), (s.slot sl).size ≤ a → a < 64 →
    (∃ t, exec (.getb sl a) s = .next t ∧ t.res = 0) ∧
    (∃ t, exec (.geth sl a e) s = .next t ∧ t.res = 0) ∧
    (∃ t, exec (.getw sl a e) s = .next t ∧ t.res = 0) ∧
    ∃ t, exec (.encode sl) s = .next t ∧ imgByte t.imgOut (8 + a) = 0) ∧
  (∀ (i : Instr) (sl : SlotId) (s : State) (q : Memory),
    (∀ a, a < (s.slot sl).size → q.read a = (s.slot sl).p.read a) →
    (i = .eq ∨ (∃ x, i = .encode x) ∨ (∃ x pos, i = .getb x pos) ∨ (∃ x pos e, i = .geth x pos e) ∨
      ∃ x pos e, i = .getw x pos e) →
      ∃ t u, exec i s = .next t ∧ exec i (s.setSlot sl { s.slot sl with p := q }) = .next u ∧
        u.status = t.status ∧ u.res = t.res ∧ u.imgOut = t.imgOut) ∧
  ∀ (i : Instr) (sl : SlotId) (pos : Nat) (s : State),
    (i = .setdlc sl ∨ i = .setsize sl ∨ ∃ f, i = .setfmt sl f) →
      ∃ t u, exec i s = .next t ∧ (t.slot sl).p = (s.slot sl).p ∧ exec (.getb sl pos) t = .next u ∧
        (pos < (t.slot sl).size → u.res = ((s.slot sl).p.read pos).setWidth 32)

/-! ## Flags -/

/-- 45_flags.md R200, R202, R204 and R206: GETRTR reads RTR in classic formats, GETBRS and GETESI read
BRS and ESI in FD formats, each 0 in the other family; GETFDF reads the family. -/
def Obligations.FlagsAreRead : Prop :=
  (∀ sl, decodeWord (0x00000011 ||| slotWord sl) = .ok (.getrtr sl) ∧
    decodeWord (0x00000013 ||| slotWord sl) = .ok (.getbrs sl) ∧
    decodeWord (0x00000015 ||| slotWord sl) = .ok (.getesi sl) ∧
    decodeWord (0x00000017 ||| slotWord sl) = .ok (.getfdf sl)) ∧
  ∀ (sl : SlotId) (s : State),
    (∃ t, exec (.getrtr sl) s = .next t ∧
      ReadsOnly s t (if isFD (s.slot sl).fmt = false ∧ (s.slot sl).rtr = true then 1 else 0)) ∧
    (∃ t, exec (.getbrs sl) s = .next t ∧
      ReadsOnly s t (if isFD (s.slot sl).fmt = true ∧ (s.slot sl).brs = true then 1 else 0)) ∧
    (∃ t, exec (.getesi sl) s = .next t ∧
      ReadsOnly s t (if isFD (s.slot sl).fmt = true ∧ (s.slot sl).esi = true then 1 else 0)) ∧
    ∃ t, exec (.getfdf sl) s = .next t ∧
      ReadsOnly s t (if (s.slot sl).fmt.code.getLsbD 1 = true then 1 else 0)

/-- 45_flags.md R201, R203 and R205: SETRTR writes RTR in classic formats, SETBRS and SETESI write BRS
and ESI in FD formats; in the other family each is a no-op with status OK. No other field changes. -/
def Obligations.FlagsAreWrittenOnlyWhereSupported : Prop :=
  (∀ sl v, decodeWord (0x00000012 ||| valWord v ||| slotWord sl) = .ok (.setrtr sl v) ∧
    decodeWord (0x00000014 ||| valWord v ||| slotWord sl) = .ok (.setbrs sl v) ∧
    decodeWord (0x00000016 ||| valWord v ||| slotWord sl) = .ok (.setesi sl v)) ∧
  ∀ (sl : SlotId) (v : Bool) (s : State),
    (∃ t, exec (.setrtr sl v) s = .next t ∧ WritesSlot s t sl
      { s.slot sl with rtr := if isFD (s.slot sl).fmt = false then v else (s.slot sl).rtr }) ∧
    (∃ t, exec (.setbrs sl v) s = .next t ∧ WritesSlot s t sl
      { s.slot sl with brs := if isFD (s.slot sl).fmt = true then v else (s.slot sl).brs }) ∧
    ∃ t, exec (.setesi sl v) s = .next t ∧ WritesSlot s t sl
      { s.slot sl with esi := if isFD (s.slot sl).fmt = true then v else (s.slot sl).esi }

/-- 45_flags.md R207: setting RTR changes neither the DLC, the size nor the payload, and a payload
access on a frame with RTR = 1 behaves exactly as with RTR = 0. -/
def Obligations.RtrIsIndependentOfThePayload : Prop :=
  (∀ (sl : SlotId) (v : Bool) (s : State), ∃ t, exec (.setrtr sl v) s = .next t ∧
    (t.slot sl).dlc = (s.slot sl).dlc ∧ (t.slot sl).size = (s.slot sl).size ∧
    (t.slot sl).p = (s.slot sl).p) ∧
  ∀ (i : Instr) (sl : SlotId) (v : Bool) (s : State),
    ((∃ pos, i = .getb sl pos ∨ i = .setb sl pos) ∨
      ∃ pos e, i = .geth sl pos e ∨ i = .seth sl pos e ∨ i = .getw sl pos e ∨ i = .setw sl pos e) →
      ∃ t, exec i s = .next t ∧ exec i (s.setSlot sl { s.slot sl with rtr := v }) =
        .next (t.setSlot sl { t.slot sl with rtr := v })

/-! ## Metadata and equality -/

/-- 46_metadata_equality.md R220 to R223: GETMRK and GETUSR return the metadata fields, SETMRK and
SETUSR store ARG0 in them and change no other field. -/
def Obligations.MetadataIsReadAndWritten : Prop :=
  (∀ sl, decodeWord (0x00000018 ||| slotWord sl) = .ok (.getmrk sl) ∧
    decodeWord (0x00000019 ||| slotWord sl) = .ok (.setmrk sl) ∧
    decodeWord (0x0000001A ||| slotWord sl) = .ok (.getusr sl) ∧
    decodeWord (0x0000001B ||| slotWord sl) = .ok (.setusr sl)) ∧
  ∀ (sl : SlotId) (s : State),
    (∃ t, exec (.getmrk sl) s = .next t ∧ ReadsOnly s t (s.slot sl).marker) ∧
    (∃ t, exec (.getusr sl) s = .next t ∧ ReadsOnly s t (s.slot sl).user) ∧
    (∃ t, exec (.setmrk sl) s = .next t ∧
      WritesSlot s t sl { s.slot sl with marker := s.ports.arg0 }) ∧
    ∃ t, exec (.setusr sl) s = .next t ∧ WritesSlot s t sl { s.slot sl with user := s.ports.arg0 }

/-- 46_metadata_equality.md R224: EQ returns 1 exactly when FMT, ID, DLC and the visible bytes of the
two slots agree, and 0 otherwise; it changes nothing else. -/
def Obligations.EqComparesTheFrames : Prop :=
  decodeWord 0x0000001C = .ok .eq ∧
  ∀ s : State, ∃ t, exec .eq s = .next t ∧ ReadsOnly s t t.res ∧
    (t.res = 0 ∨ t.res = 1) ∧
    (t.res = 1 ↔ s.slot0.fmt = s.slot1.fmt ∧ s.slot0.id = s.slot1.id ∧ s.slot0.dlc = s.slot1.dlc ∧
      ∀ i, i < s.slot0.size → s.slot0.p.read i = s.slot1.p.read i)

/-- EQ is symmetric: an inference the spec marks as its own (46_metadata_equality.md, EQ, corner cases:
"EQ is symmetric and leaves both slots unchanged"). -/
def Obligations.EqIsSymmetric : Prop :=
  ∀ s : State, ∃ t u, exec .eq s = .next t ∧
    exec .eq { s with slot0 := s.slot1, slot1 := s.slot0 } = .next u ∧ u.res = t.res

/-! ## Wire image -/

/-- 47_wire.md R243: ENCODE writes IMG_OUT with the image of the slot, byte by byte as the layout says,
and changes no slot. -/
def Obligations.EncodeWritesTheImage : Prop :=
  (∀ sl, decodeWord (0x0000001D ||| slotWord sl) = .ok (.encode sl)) ∧
  ∀ (sl : SlotId) (s : State), ∃ t, exec (.encode sl) s = .next t ∧
    Responds s t .ok 0 (some t.imgOut) ∧ t.slot0 = s.slot0 ∧ t.slot1 = s.slot1 ∧
    imgByte t.imgOut 0 = 0x01 ∧
    imgByte t.imgOut 1 = 0#3 ++ BitVec.ofBool (s.slot sl).esi ++ BitVec.ofBool (s.slot sl).brs ++
      BitVec.ofBool (s.slot sl).rtr ++ (s.slot sl).fmt.code ∧
    imgByte t.imgOut 2 = 0#4 ++ (s.slot sl).dlc ∧
    imgByte t.imgOut 3 = 0x00 ∧
    imgByte t.imgOut 4 = (s.slot sl).id.extractLsb' 24 8 ∧
    imgByte t.imgOut 5 = (s.slot sl).id.extractLsb' 16 8 ∧
    imgByte t.imgOut 6 = (s.slot sl).id.extractLsb' 8 8 ∧
    imgByte t.imgOut 7 = (s.slot sl).id.extractLsb' 0 8 ∧
    ∀ i, i < 64 → imgByte t.imgOut (8 + i) =
      if i < (s.slot sl).size then (s.slot sl).p.read i else 0

/-- The image of every slot that satisfies INV is valid, and DECODE of a valid image leaves its slot
with INV, whatever it held. Both are inferences the spec marks as its own (47_wire.md, the image: "holds
for every slot that satisfies `INV(s)`", and DECODE, corner cases: "A successful DECODE leaves the slot
satisfying `INV`"). -/
def Obligations.ImagesAndGoodSlotsCorrespond : Prop :=
  (∀ s : Slot, s.Inv → validImage (imageOf s) = true) ∧
  ∀ (sl : SlotId) (s : State), validImage s.ports.imgIn = true →
    ∃ t, exec (.decode sl) s = .next t ∧ (t.slot sl).Inv

/-- 47_wire.md R241: an image is valid exactly when V1 to V6 hold, and an image that fails any of them
gets the one verdict PROTOCOL_ERROR. -/
def Obligations.ValidMeansTheSixConditions : Prop :=
  (∀ img : Image,
    let f := Format.ofCode ((imgByte img 1).extractLsb' 0 2)
    let d : BitVec 4 := (imgByte img 2).extractLsb' 0 4
    let id : Word := imgByte img 4 ++ imgByte img 5 ++ imgByte img 6 ++ imgByte img 7
    (validImage img = true ↔
      imgByte img 0 = 0x01 ∧
      ((imgByte img 1).extractLsb' 5 3 = 0 ∧ (imgByte img 2).extractLsb' 4 4 = 0 ∧ imgByte img 3 = 0) ∧
      d.toNat ≤ (if isFD f then 15 else 8) ∧
      id &&& ~~~(if isExt f then (0x1FFFFFFF : Word) else 0x000007FF) = 0 ∧
      (if isFD f then (imgByte img 1).getLsbD 2 = false
        else (imgByte img 1).getLsbD 3 = false ∧ (imgByte img 1).getLsbD 4 = false) ∧
      ∀ i, dlcToLen f d ≤ i → i < 64 → imgByte img (8 + i) = 0)) ∧
  ∀ (sl : SlotId) (s : State), ∃ t, exec (.decode sl) s = .next t ∧
    (t.status = .protocolError ↔ validImage s.ports.imgIn = false)

/-- 47_wire.md R244: DECODE of a valid image writes the slot from it, MARKER and USER 0; DECODE of any
other image answers PROTOCOL_ERROR with RES 0 and changes neither slot nor IMG_OUT. -/
def Obligations.DecodeWritesTheSlotOrReportsTheError : Prop :=
  (∀ sl, decodeWord (0x0000001E ||| slotWord sl) = .ok (.decode sl)) ∧
  (∀ (sl : SlotId) (s : State), validImage s.ports.imgIn = true →
    ∃ t, exec (.decode sl) s = .next t ∧ WritesSlot s t sl (t.slot sl) ∧
      (t.slot sl).fmt.code = (imgByte s.ports.imgIn 1).extractLsb' 0 2 ∧
      (t.slot sl).rtr = (imgByte s.ports.imgIn 1).getLsbD 2 ∧
      (t.slot sl).brs = (imgByte s.ports.imgIn 1).getLsbD 3 ∧
      (t.slot sl).esi = (imgByte s.ports.imgIn 1).getLsbD 4 ∧
      (t.slot sl).dlc = (imgByte s.ports.imgIn 2).extractLsb' 0 4 ∧
      (t.slot sl).id = imgByte s.ports.imgIn 4 ++ imgByte s.ports.imgIn 5 ++
        imgByte s.ports.imgIn 6 ++ imgByte s.ports.imgIn 7 ∧
      (∀ i, i < 64 → (t.slot sl).p.read i = imgByte s.ports.imgIn (8 + i)) ∧
      (∀ i, 64 ≤ i → (t.slot sl).p.read i = 0) ∧
      (t.slot sl).marker = 0 ∧ (t.slot sl).user = 0) ∧
  ∀ (sl : SlotId) (s : State), validImage s.ports.imgIn = false →
    ∃ t, exec (.decode sl) s = .next t ∧ Responds s t .protocolError 0 none ∧ KeepsFrames s t

/-- 47_wire.md R246: a protocol error affects only the command that raised it: the next command runs as
if the failed DECODE had not been issued, except that the response was returned. -/
def Obligations.FailedDecodeIsIsolated : Prop :=
  ∀ (s : State) (r r' : Request) (rest : List HostEvent) (sl : SlotId),
    s.host = .request r :: .request r' :: rest → decodeWord r.cmd = .ok (.decode sl) →
    validImage r.imgIn = false →
      ∃ t u v resp, step s = .next t ∧ t.status = .protocolError ∧ t.res = 0 ∧ t.frames = s.frames ∧
        step t = .next u ∧ step { s with host := .request r' :: rest } = .next v ∧
        u = { v with responses := resp }

/-- Inferences the spec marks as its own (47_wire.md, "Round-trip laws"): (a) ENCODE of a slot, then
DECODE of that image into another, gives it the same frame with hidden bytes, MARKER and USER 0, and EQ
then returns 1 (for two different slots; into the same slot the frame is kept likewise); (b) DECODE of
a valid image, then ENCODE, gives the image byte for byte; (c) `Image` is a bijection between the bare
slots and the valid images. -/
def Obligations.WireImageRoundTrips : Prop :=
  (∀ (src dst : SlotId) (s : State), (s.slot src).Inv →
    ∃ t u, exec (.encode src) s = .next t ∧
      exec (.decode dst) { t with ports := { t.ports with imgIn := t.imgOut } } = .next u ∧
      u.status = .ok ∧ (u.slot dst).fmt = (s.slot src).fmt ∧ (u.slot dst).id = (s.slot src).id ∧
      (u.slot dst).dlc = (s.slot src).dlc ∧ (u.slot dst).rtr = (s.slot src).rtr ∧
      (u.slot dst).brs = (s.slot src).brs ∧ (u.slot dst).esi = (s.slot src).esi ∧
      (∀ i, i < (s.slot src).size → (u.slot dst).p.read i = (s.slot src).p.read i) ∧
      (∀ i, (s.slot src).size ≤ i → (u.slot dst).p.read i = 0) ∧
      (u.slot dst).marker = 0 ∧ (u.slot dst).user = 0 ∧
      (src ≠ dst → ∃ v, exec .eq u = .next v ∧ v.res = 1)) ∧
  (∀ (sl : SlotId) (s : State), validImage s.ports.imgIn = true →
    ∃ t u, exec (.decode sl) s = .next t ∧ exec (.encode sl) t = .next u ∧
      u.imgOut = s.ports.imgIn) ∧
  (∀ a : Slot, a.Bare → validImage (imageOf a) = true) ∧
  (∀ a b : Slot, a.Bare → b.Bare → imageOf a = imageOf b → a = b) ∧
  ∀ img : Image, validImage img = true → ∃ a : Slot, a.Bare ∧ imageOf a = img
end

