-- ==== Sys2Proof/Laws/Decode.lean ====
section
/-! SUPPORT. The command word: each field of a packed word is what was packed, codes round-trip, and
what the decoder answers row by row. -/

namespace Sys2Proof

@[simp] theorem Format.ofCode_code (f : Format) : Format.ofCode f.code = f := by cases f <;> decide

theorem Format.code_ofCode (c : BitVec 2) : (Format.ofCode c).code = c := by
  revert c; decide

@[simp] theorem SlotId.ofBit_bit (sl : SlotId) : SlotId.ofBit sl.bit = sl := by cases sl <;> decide

theorem SlotId.bit_ofBit (b : BitVec 1) : (SlotId.ofBit b).bit = b := by revert b; decide

@[simp] theorem Endian.ofBit_bit (e : Endian) : Endian.ofBit e.bit = e := by cases e <;> decide

theorem Endian.bit_ofBit (b : BitVec 1) : (Endian.ofBit b).bit = b := by revert b; decide

@[simp] theorem flagBit_eq_one (v : Bool) : (flagBit v == 1#1) = v := by cases v <;> decide

/-- A position fits its field when it is below 256. -/
theorem posFits_iff (pos : Nat) : posFits pos = true ↔ pos < 256 := decide_eq_true_iff

/-! ## Fields of a packed word (30_encoding.md R70) -/

section
variable (pos : BitVec 8) (val en : BitVec 1) (fmt : BitVec 2) (slot : BitVec 1) (opc : BitVec 5)

theorem packWord_getLsbD (i : Nat) : (packWord pos val en fmt slot opc).getLsbD i =
    if i < 5 then opc.getLsbD i else if i < 6 then slot.getLsbD (i - 5)
    else if i < 8 then fmt.getLsbD (i - 6) else if i < 9 then en.getLsbD (i - 8)
    else if i < 10 then val.getLsbD (i - 9) else if i < 16 then false
    else pos.getLsbD (i - 16) := by
  simp only [packWord, BitVec.getLsbD_append, BitVec.getLsbD_zero, Nat.sub_sub]
  by_cases h1 : i < 5
  · simp [h1]
  by_cases h2 : i < 6
  · simp [h1, h2, show i - 5 < 1 by omega]
  by_cases h3 : i < 8
  · simp [h1, h2, h3, show ¬ i - 5 < 1 by omega, show i - 6 < 2 by omega]
  by_cases h4 : i < 9
  · simp [h1, h2, h3, h4, show ¬ i - 5 < 1 by omega, show ¬ i - 6 < 2 by omega,
      show i - 8 < 1 by omega]
  by_cases h5 : i < 10
  · simp [h1, h2, h3, h4, h5, show ¬ i - 5 < 1 by omega, show ¬ i - 6 < 2 by omega,
      show ¬ i - 8 < 1 by omega, show i - 9 < 1 by omega]
  by_cases h6 : i < 16
  · simp [h1, h2, h3, h4, h5, h6, show ¬ i - 5 < 1 by omega, show ¬ i - 6 < 2 by omega,
      show ¬ i - 8 < 1 by omega, show ¬ i - 9 < 1 by omega, show i - 10 < 6 by omega]
  · simp only [h1, h2, h3, h4, h5, h6, show ¬ i - 5 < 1 by omega, show ¬ i - 6 < 2 by omega,
      show ¬ i - 8 < 1 by omega, show ¬ i - 9 < 1 by omega, show ¬ i - 10 < 6 by omega, if_false]
    by_cases h7 : i - 16 < 8
    · simp [h7]
    · rw [if_neg h7, BitVec.getLsbD_of_ge _ _ (by omega)]

@[simp] theorem opcField_packWord : opcField (packWord pos val en fmt slot opc) = opc := by
  apply BitVec.eq_of_getLsbD_eq
  intro i hi
  simp [opcField, packWord_getLsbD, hi]

@[simp] theorem slotField_packWord :
    slotField (packWord pos val en fmt slot opc) = SlotId.ofBit slot := by
  unfold slotField
  congr 1
  apply BitVec.eq_of_getLsbD_eq
  intro i hi
  simp only [BitVec.getLsbD_extractLsb', packWord_getLsbD]
  obtain rfl : i = 0 := by omega
  simp

@[simp] theorem fmtField_packWord :
    fmtField (packWord pos val en fmt slot opc) = Format.ofCode fmt := by
  unfold fmtField
  congr 1
  apply BitVec.eq_of_getLsbD_eq
  intro i hi
  simp only [BitVec.getLsbD_extractLsb', packWord_getLsbD]
  interval_cases i <;> simp

@[simp] theorem endField_packWord :
    endField (packWord pos val en fmt slot opc) = Endian.ofBit en := by
  unfold endField
  congr 1
  apply BitVec.eq_of_getLsbD_eq
  intro i hi
  simp only [BitVec.getLsbD_extractLsb', packWord_getLsbD]
  obtain rfl : i = 0 := by omega
  simp

@[simp] theorem valField_packWord : valField (packWord pos val en fmt slot opc) = (val == 1) := by
  unfold valField
  congr 1
  apply BitVec.eq_of_getLsbD_eq
  intro i hi
  simp only [BitVec.getLsbD_extractLsb', packWord_getLsbD]
  obtain rfl : i = 0 := by omega
  simp

@[simp] theorem posField_packWord : posField (packWord pos val en fmt slot opc) = pos.toNat := by
  unfold posField
  congr 1
  apply BitVec.eq_of_getLsbD_eq
  intro i hi
  simp only [BitVec.getLsbD_extractLsb', packWord_getLsbD]
  interval_cases i <;> simp

@[simp] theorem rsv0Field_packWord : rsv0Field (packWord pos val en fmt slot opc) = 0 := by
  apply BitVec.eq_of_getLsbD_eq
  intro i hi
  simp only [rsv0Field, BitVec.getLsbD_extractLsb', packWord_getLsbD]
  interval_cases i <;> simp

@[simp] theorem rsv1Field_packWord : rsv1Field (packWord pos val en fmt slot opc) = 0 := by
  apply BitVec.eq_of_getLsbD_eq
  intro i hi
  simp only [rsv1Field, BitVec.getLsbD_extractLsb', packWord_getLsbD]
  interval_cases i <;> simp

/-- A packed word passes the reserved-bit test. -/
theorem decodeWord_packWord : decodeWord (packWord pos val en fmt slot opc) =
    decodeOpcode (packWord pos val en fmt slot opc) := by
  simp [decodeWord]

end

/-! ## The fields of any word, bit by bit -/

theorem slotField_eq (w : Word) : slotField w = if w.getLsbD 5 then .s1 else .s0 := by
  unfold slotField SlotId.ofBit
  have : w.extractLsb' 5 1 = BitVec.ofBool (w.getLsbD 5) := by
    apply BitVec.eq_of_getLsbD_eq
    intro i hi
    obtain rfl : i = 0 := by omega
    simp
  rw [this]
  cases w.getLsbD 5 <;> rfl

theorem endField_eq (w : Word) : endField w = if w.getLsbD 8 then .big else .little := by
  unfold endField Endian.ofBit
  have : w.extractLsb' 8 1 = BitVec.ofBool (w.getLsbD 8) := by
    apply BitVec.eq_of_getLsbD_eq
    intro i hi
    obtain rfl : i = 0 := by omega
    simp
  rw [this]
  cases w.getLsbD 8 <;> rfl

theorem valField_eq (w : Word) : valField w = w.getLsbD 9 := by
  unfold valField
  have : w.extractLsb' 9 1 = BitVec.ofBool (w.getLsbD 9) := by
    apply BitVec.eq_of_getLsbD_eq
    intro i hi
    obtain rfl : i = 0 := by omega
    simp
  rw [this]
  cases w.getLsbD 9 <;> rfl

theorem fmtField_eq (w : Word) : fmtField w =
    if w.getLsbD 7 then (if w.getLsbD 6 then .fdExt else .fdStd)
    else (if w.getLsbD 6 then .canExt else .canStd) := by
  unfold fmtField Format.ofCode
  have : w.extractLsb' 6 2 = BitVec.ofBool (w.getLsbD 7) ++ BitVec.ofBool (w.getLsbD 6) := by
    apply BitVec.eq_of_getLsbD_eq
    intro i hi
    simp only [BitVec.getLsbD_extractLsb', BitVec.getLsbD_append]
    interval_cases i <;> simp
  rw [this]
  cases w.getLsbD 7 <;> cases w.getLsbD 6 <;> rfl

theorem posField_eq (w : Word) : posField w = (w >>> 16).toNat % 256 := by
  simp [posField, BitVec.extractLsb'_toNat]

/-! ## Any word is its fields -/

/-- A word whose reserved fields are 0 is the pack of its other fields. -/
theorem packWord_fields (w : Word) (h1 : rsv1Field w = 0) (h0 : rsv0Field w = 0) :
    packWord (w.extractLsb' 16 8) (w.extractLsb' 9 1) (w.extractLsb' 8 1) (w.extractLsb' 6 2)
      (w.extractLsb' 5 1) (opcField w) = w := by
  have b1 : ∀ i, i < 8 → w.getLsbD (24 + i) = false := fun i hi => by
    have := congrArg (BitVec.getLsbD · i) h1
    simpa [rsv1Field, hi] using this
  have b0 : ∀ i, i < 6 → w.getLsbD (10 + i) = false := fun i hi => by
    have := congrArg (BitVec.getLsbD · i) h0
    simpa [rsv0Field, hi] using this
  apply BitVec.eq_of_getLsbD_eq
  intro i hi
  simp only [packWord_getLsbD, opcField, BitVec.getLsbD_extractLsb']
  have c1 := b1 (i - 24)
  have c0 := b0 (i - 10)
  interval_cases i <;> simp_all

/-- The match of an opcode table row (30_encoding.md R75) in terms of the fields. -/
theorem rowMatch_iff (w : Word) (o : BitVec 5) : w &&& 0xFF00FC1F = o.setWidth 32 ↔
    rsv1Field w = 0 ∧ rsv0Field w = 0 ∧ opcField w = o := by
  constructor
  · intro h
    have hb := fun i => congrArg (BitVec.getLsbD · i) h
    refine ⟨?_, ?_, ?_⟩
    · apply BitVec.eq_of_getLsbD_eq
      intro i hi
      have := hb (24 + i)
      simp only [rsv1Field, BitVec.getLsbD_extractLsb']
      interval_cases i <;> simpa using this
    · apply BitVec.eq_of_getLsbD_eq
      intro i hi
      have := hb (10 + i)
      simp only [rsv0Field, BitVec.getLsbD_extractLsb']
      interval_cases i <;> simpa using this
    · apply BitVec.eq_of_getLsbD_eq
      intro i hi
      have := hb i
      simp only [opcField, BitVec.getLsbD_extractLsb']
      interval_cases i <;> simpa using this
  · rintro ⟨h1, h0, rfl⟩
    rw [← packWord_fields w h1 h0]
    apply BitVec.eq_of_getLsbD_eq
    intro i hi
    simp only [BitVec.getLsbD_and, packWord_getLsbD, opcField_packWord, BitVec.getLsbD_setWidth]
    interval_cases i <;> simp

/-- The reserved-bit test as a mask (30_encoding.md R75). -/
theorem reservedMask_iff (w : Word) :
    w &&& 0xFF00FC00 = 0 ↔ rsv1Field w = 0 ∧ rsv0Field w = 0 := by
  constructor
  · intro h
    have hb := fun i => congrArg (BitVec.getLsbD · i) h
    constructor
    · apply BitVec.eq_of_getLsbD_eq
      intro i hi
      have := hb (24 + i)
      simp only [rsv1Field, BitVec.getLsbD_extractLsb']
      interval_cases i <;> simpa using this
    · apply BitVec.eq_of_getLsbD_eq
      intro i hi
      have := hb (10 + i)
      simp only [rsv0Field, BitVec.getLsbD_extractLsb']
      interval_cases i <;> simpa using this
  · rintro ⟨h1, h0⟩
    rw [← packWord_fields w h1 h0]
    apply BitVec.eq_of_getLsbD_eq
    intro i hi
    simp only [BitVec.getLsbD_and, packWord_getLsbD]
    interval_cases i <;> simp

/-- The decoder refuses a word with a reserved bit. -/
theorem decodeWord_reserved {w : Word} (h : rsv1Field w ≠ 0 ∨ rsv0Field w ≠ 0) :
    decodeWord w = .error .reservedBits := by
  unfold decodeWord
  rw [if_pos h]

/-- A legal word has clear reserved fields, and its opcode row answers. -/
theorem decodeWord_ok {w : Word} {i : Instr} (h : decodeWord w = .ok i) :
    rsv1Field w = 0 ∧ rsv0Field w = 0 ∧ decodeOpcode w = .ok i := by
  unfold decodeWord at h
  split at h
  · cases h
  · rename_i hr
    exact ⟨by by_contra hc; exact hr (.inl hc), by by_contra hc; exact hr (.inr hc), h⟩

end Sys2Proof
end

