-- ==== Sys2Proof/Laws/State.lean ====
section
/-! SUPPORT. One lemma per field per update of the state and of a slot, all by `rfl` or by cases on the
slot, so that no later proof unfolds a record update. -/

namespace Sys2Proof.Machine

/-! ### respond -/

@[simp] theorem State.respond_slot0 (s : State) (st : Status) (r : Word) :
    (s.respond st r).slot0 = s.slot0 := rfl

@[simp] theorem State.respond_slot1 (s : State) (st : Status) (r : Word) :
    (s.respond st r).slot1 = s.slot1 := rfl

@[simp] theorem State.respond_status (s : State) (st : Status) (r : Word) :
    (s.respond st r).status = st := rfl

@[simp] theorem State.respond_res (s : State) (st : Status) (r : Word) :
    (s.respond st r).res = r := rfl

@[simp] theorem State.respond_imgOut (s : State) (st : Status) (r : Word) :
    (s.respond st r).imgOut = s.imgOut := rfl

@[simp] theorem State.respond_ports (s : State) (st : Status) (r : Word) :
    (s.respond st r).ports = s.ports := rfl

@[simp] theorem State.respond_host (s : State) (st : Status) (r : Word) :
    (s.respond st r).host = s.host := rfl

@[simp] theorem State.respond_responses (s : State) (st : Status) (r : Word) :
    (s.respond st r).responses = { status := st, res := r, image := none } :: s.responses := rfl


/-! ### respondImage -/

@[simp] theorem State.respondImage_slot0 (s : State) (img : Image) :
    (s.respondImage img).slot0 = s.slot0 := rfl

@[simp] theorem State.respondImage_slot1 (s : State) (img : Image) :
    (s.respondImage img).slot1 = s.slot1 := rfl

@[simp] theorem State.respondImage_status (s : State) (img : Image) :
    (s.respondImage img).status = .ok := rfl

@[simp] theorem State.respondImage_res (s : State) (img : Image) :
    (s.respondImage img).res = 0 := rfl

@[simp] theorem State.respondImage_imgOut (s : State) (img : Image) :
    (s.respondImage img).imgOut = img := rfl

@[simp] theorem State.respondImage_ports (s : State) (img : Image) :
    (s.respondImage img).ports = s.ports := rfl

@[simp] theorem State.respondImage_host (s : State) (img : Image) :
    (s.respondImage img).host = s.host := rfl

@[simp] theorem State.respondImage_responses (s : State) (img : Image) :
    (s.respondImage img).responses = { status := .ok, res := 0, image := some img } :: s.responses := rfl


/-! ### present -/

@[simp] theorem State.present_slot0 (s : State) (r : Request) (rest : List HostEvent) :
    (s.present r rest).slot0 = s.slot0 := rfl

@[simp] theorem State.present_slot1 (s : State) (r : Request) (rest : List HostEvent) :
    (s.present r rest).slot1 = s.slot1 := rfl

@[simp] theorem State.present_status (s : State) (r : Request) (rest : List HostEvent) :
    (s.present r rest).status = s.status := rfl

@[simp] theorem State.present_res (s : State) (r : Request) (rest : List HostEvent) :
    (s.present r rest).res = s.res := rfl

@[simp] theorem State.present_imgOut (s : State) (r : Request) (rest : List HostEvent) :
    (s.present r rest).imgOut = s.imgOut := rfl

@[simp] theorem State.present_ports (s : State) (r : Request) (rest : List HostEvent) :
    (s.present r rest).ports = r := rfl

@[simp] theorem State.present_host (s : State) (r : Request) (rest : List HostEvent) :
    (s.present r rest).host = rest := rfl

@[simp] theorem State.present_responses (s : State) (r : Request) (rest : List HostEvent) :
    (s.present r rest).responses = s.responses := rfl


/-! ### applyReset -/

@[simp] theorem State.applyReset_slot0 (s : State) (rest : List HostEvent) :
    (s.applyReset rest).slot0 = Slot.cleared := rfl

@[simp] theorem State.applyReset_slot1 (s : State) (rest : List HostEvent) :
    (s.applyReset rest).slot1 = Slot.cleared := rfl

@[simp] theorem State.applyReset_status (s : State) (rest : List HostEvent) :
    (s.applyReset rest).status = .ok := rfl

@[simp] theorem State.applyReset_res (s : State) (rest : List HostEvent) :
    (s.applyReset rest).res = 0 := rfl

@[simp] theorem State.applyReset_imgOut (s : State) (rest : List HostEvent) :
    (s.applyReset rest).imgOut = zeroImage := rfl

@[simp] theorem State.applyReset_ports (s : State) (rest : List HostEvent) :
    (s.applyReset rest).ports = s.ports := rfl

@[simp] theorem State.applyReset_host (s : State) (rest : List HostEvent) :
    (s.applyReset rest).host = rest := rfl

@[simp] theorem State.applyReset_responses (s : State) (rest : List HostEvent) :
    (s.applyReset rest).responses = s.responses := rfl


/-! ### pushCommand -/

@[simp] theorem State.pushCommand_slot0 (s : State) (w : Word) :
    (s.pushCommand w).slot0 = s.slot0 := rfl

@[simp] theorem State.pushCommand_slot1 (s : State) (w : Word) :
    (s.pushCommand w).slot1 = s.slot1 := rfl

@[simp] theorem State.pushCommand_status (s : State) (w : Word) :
    (s.pushCommand w).status = s.status := rfl

@[simp] theorem State.pushCommand_res (s : State) (w : Word) :
    (s.pushCommand w).res = s.res := rfl

@[simp] theorem State.pushCommand_imgOut (s : State) (w : Word) :
    (s.pushCommand w).imgOut = s.imgOut := rfl

@[simp] theorem State.pushCommand_ports (s : State) (w : Word) :
    (s.pushCommand w).ports = s.ports := rfl

@[simp] theorem State.pushCommand_host (s : State) (w : Word) :
    (s.pushCommand w).host = .request (s.requestWith w) :: s.host := rfl

@[simp] theorem State.pushCommand_responses (s : State) (w : Word) :
    (s.pushCommand w).responses = s.responses := rfl


/-! ### setSlot -/

@[simp] theorem State.setSlot_status (s : State) (sl : SlotId) (x : Slot) :
    (s.setSlot sl x).status = s.status := by cases sl <;> rfl

@[simp] theorem State.setSlot_res (s : State) (sl : SlotId) (x : Slot) :
    (s.setSlot sl x).res = s.res := by cases sl <;> rfl

@[simp] theorem State.setSlot_imgOut (s : State) (sl : SlotId) (x : Slot) :
    (s.setSlot sl x).imgOut = s.imgOut := by cases sl <;> rfl

@[simp] theorem State.setSlot_ports (s : State) (sl : SlotId) (x : Slot) :
    (s.setSlot sl x).ports = s.ports := by cases sl <;> rfl

@[simp] theorem State.setSlot_host (s : State) (sl : SlotId) (x : Slot) :
    (s.setSlot sl x).host = s.host := by cases sl <;> rfl

@[simp] theorem State.setSlot_responses (s : State) (sl : SlotId) (x : Slot) :
    (s.setSlot sl x).responses = s.responses := by cases sl <;> rfl

@[simp] theorem State.setSlot_slot (s : State) (sl : SlotId) (x : Slot) :
    (s.setSlot sl x).slot sl = x := by cases sl <;> rfl

@[simp] theorem State.setSlot_slot_other (s : State) (sl : SlotId) (x : Slot) :
    (s.setSlot sl x).slot (other sl) = s.slot (other sl) := by cases sl <;> rfl

@[simp] theorem State.setSlot_other_slot (s : State) (sl : SlotId) (x : Slot) :
    (s.setSlot (other sl) x).slot sl = s.slot sl := by cases sl <;> rfl

theorem State.setSlot_slot_ne (s : State) (sl sl' : SlotId) (x : Slot) (h : sl' ≠ sl) :
    (s.setSlot sl x).slot sl' = s.slot sl' := by
  cases sl <;> cases sl' <;> first | rfl | exact absurd rfl h

@[simp] theorem State.setSlot_self (s : State) (sl : SlotId) : s.setSlot sl (s.slot sl) = s := by
  cases sl <;> rfl

theorem State.setSlot_comm (s : State) (sl : SlotId) (x y : Slot) :
    (s.setSlot sl x).setSlot (other sl) y = (s.setSlot (other sl) y).setSlot sl x := by
  cases sl <;> rfl

@[simp] theorem State.setSlot_setSlot (s : State) (sl : SlotId) (x y : Slot) :
    (s.setSlot sl x).setSlot sl y = s.setSlot sl y := by cases sl <;> rfl

@[simp] theorem State.respond_slot (s : State) (st : Status) (r : Word) (sl : SlotId) :
    (s.respond st r).slot sl = s.slot sl := by cases sl <;> rfl

@[simp] theorem State.respondImage_slot (s : State) (img : Image) (sl : SlotId) :
    (s.respondImage img).slot sl = s.slot sl := by cases sl <;> rfl

@[simp] theorem State.present_slot (s : State) (r : Request) (rest : List HostEvent) (sl : SlotId) :
    (s.present r rest).slot sl = s.slot sl := by cases sl <;> rfl

theorem State.setSlot_respond (s : State) (sl : SlotId) (x : Slot) (st : Status) (r : Word) :
    (s.respond st r).setSlot sl x = (s.setSlot sl x).respond st r := by cases sl <;> rfl

theorem State.setSlot_respondImage (s : State) (sl : SlotId) (x : Slot) (img : Image) :
    (s.respondImage img).setSlot sl x = (s.setSlot sl x).respondImage img := by cases sl <;> rfl

@[simp] theorem State.slot_s0 (s : State) : s.slot .s0 = s.slot0 := rfl

@[simp] theorem State.slot_s1 (s : State) : s.slot .s1 = s.slot1 := rfl

@[simp] theorem other_other (sl : SlotId) : other (other sl) = sl := by cases sl <;> rfl

theorem other_ne (sl : SlotId) : other sl ≠ sl := by cases sl <;> decide

/-- A property of both slots is a property of every slot. -/
theorem State.both_slots_iff (s : State) (P : Slot → Prop) :
    (P s.slot0 ∧ P s.slot1) ↔ ∀ sl, P (s.slot sl) :=
  ⟨fun h sl => by cases sl <;> simp [h.1, h.2], fun h => ⟨h .s0, h .s1⟩⟩

/-! ### Slot updates -/

/-- Under RETAIN a growing size changes no byte (10_state.md R31). -/
@[simp] theorem Slot.grownFrom_eq (old new : Slot) : Slot.grownFrom old new = new := rfl

@[simp] theorem Slot.readId_eq (s : Slot) : s.readId = s.id := rfl

@[simp] theorem Slot.idForFormat_eq (s : Slot) (f : Format) : s.idForFormat f = s.id &&& mask f := rfl

@[simp] theorem Slot.eqFlagsMatch_eq (a b : Slot) : Slot.eqFlagsMatch a b = true := rfl

theorem Slot.setDlc_eq (s : Slot) (d : BitVec 4) : s.setDlc d = { s with dlc := d } := rfl

@[simp] theorem Slot.setDlc_fmt (s : Slot) (d : BitVec 4) :
    (s.setDlc d).fmt = s.fmt := rfl

@[simp] theorem Slot.setDlc_id (s : Slot) (d : BitVec 4) :
    (s.setDlc d).id = s.id := rfl

@[simp] theorem Slot.setDlc_dlc (s : Slot) (d : BitVec 4) :
    (s.setDlc d).dlc = d := rfl

@[simp] theorem Slot.setDlc_p (s : Slot) (d : BitVec 4) :
    (s.setDlc d).p = s.p := rfl

@[simp] theorem Slot.setDlc_rtr (s : Slot) (d : BitVec 4) :
    (s.setDlc d).rtr = s.rtr := rfl

@[simp] theorem Slot.setDlc_brs (s : Slot) (d : BitVec 4) :
    (s.setDlc d).brs = s.brs := rfl

@[simp] theorem Slot.setDlc_esi (s : Slot) (d : BitVec 4) :
    (s.setDlc d).esi = s.esi := rfl

@[simp] theorem Slot.setDlc_marker (s : Slot) (d : BitVec 4) :
    (s.setDlc d).marker = s.marker := rfl

@[simp] theorem Slot.setDlc_user (s : Slot) (d : BitVec 4) :
    (s.setDlc d).user = s.user := rfl

@[simp] theorem Slot.setId_fmt (s : Slot) (x : Word) :
    (s.setId x).fmt = s.fmt := rfl

@[simp] theorem Slot.setId_id (s : Slot) (x : Word) :
    (s.setId x).id = x &&& mask s.fmt := rfl

@[simp] theorem Slot.setId_dlc (s : Slot) (x : Word) :
    (s.setId x).dlc = s.dlc := rfl

@[simp] theorem Slot.setId_p (s : Slot) (x : Word) :
    (s.setId x).p = s.p := rfl

@[simp] theorem Slot.setId_rtr (s : Slot) (x : Word) :
    (s.setId x).rtr = s.rtr := rfl

@[simp] theorem Slot.setId_brs (s : Slot) (x : Word) :
    (s.setId x).brs = s.brs := rfl

@[simp] theorem Slot.setId_esi (s : Slot) (x : Word) :
    (s.setId x).esi = s.esi := rfl

@[simp] theorem Slot.setId_marker (s : Slot) (x : Word) :
    (s.setId x).marker = s.marker := rfl

@[simp] theorem Slot.setId_user (s : Slot) (x : Word) :
    (s.setId x).user = s.user := rfl

@[simp] theorem Slot.changeFormat_fmt (s : Slot) (f : Format) :
    (s.changeFormat f).fmt = f := rfl

@[simp] theorem Slot.changeFormat_id (s : Slot) (f : Format) :
    (s.changeFormat f).id = s.id &&& mask f := rfl

@[simp] theorem Slot.changeFormat_dlc (s : Slot) (f : Format) :
    (s.changeFormat f).dlc = s.dlcForFormat f := rfl

@[simp] theorem Slot.changeFormat_p (s : Slot) (f : Format) :
    (s.changeFormat f).p = s.p := rfl

@[simp] theorem Slot.changeFormat_rtr (s : Slot) (f : Format) :
    (s.changeFormat f).rtr = if familyChange s.fmt f then false else s.rtr := rfl

@[simp] theorem Slot.changeFormat_brs (s : Slot) (f : Format) :
    (s.changeFormat f).brs = if familyChange s.fmt f then false else s.brs := rfl

@[simp] theorem Slot.changeFormat_esi (s : Slot) (f : Format) :
    (s.changeFormat f).esi = if familyChange s.fmt f then false else s.esi := rfl

@[simp] theorem Slot.changeFormat_marker (s : Slot) (f : Format) :
    (s.changeFormat f).marker = s.marker := rfl

@[simp] theorem Slot.changeFormat_user (s : Slot) (f : Format) :
    (s.changeFormat f).user = s.user := rfl

@[simp] theorem Slot.writeRtr_fmt (s : Slot) (v : Bool) :
    (s.writeRtr v).fmt = s.fmt := by unfold Slot.writeRtr; split <;> rfl

@[simp] theorem Slot.writeRtr_id (s : Slot) (v : Bool) :
    (s.writeRtr v).id = s.id := by unfold Slot.writeRtr; split <;> rfl

@[simp] theorem Slot.writeRtr_dlc (s : Slot) (v : Bool) :
    (s.writeRtr v).dlc = s.dlc := by unfold Slot.writeRtr; split <;> rfl

@[simp] theorem Slot.writeRtr_p (s : Slot) (v : Bool) :
    (s.writeRtr v).p = s.p := by unfold Slot.writeRtr; split <;> rfl

@[simp] theorem Slot.writeRtr_brs (s : Slot) (v : Bool) :
    (s.writeRtr v).brs = s.brs := by unfold Slot.writeRtr; split <;> rfl

@[simp] theorem Slot.writeRtr_esi (s : Slot) (v : Bool) :
    (s.writeRtr v).esi = s.esi := by unfold Slot.writeRtr; split <;> rfl

@[simp] theorem Slot.writeRtr_marker (s : Slot) (v : Bool) :
    (s.writeRtr v).marker = s.marker := by unfold Slot.writeRtr; split <;> rfl

@[simp] theorem Slot.writeRtr_user (s : Slot) (v : Bool) :
    (s.writeRtr v).user = s.user := by unfold Slot.writeRtr; split <;> rfl

@[simp] theorem Slot.writeBrs_fmt (s : Slot) (v : Bool) :
    (s.writeBrs v).fmt = s.fmt := by unfold Slot.writeBrs; split <;> rfl

@[simp] theorem Slot.writeBrs_id (s : Slot) (v : Bool) :
    (s.writeBrs v).id = s.id := by unfold Slot.writeBrs; split <;> rfl

@[simp] theorem Slot.writeBrs_dlc (s : Slot) (v : Bool) :
    (s.writeBrs v).dlc = s.dlc := by unfold Slot.writeBrs; split <;> rfl

@[simp] theorem Slot.writeBrs_p (s : Slot) (v : Bool) :
    (s.writeBrs v).p = s.p := by unfold Slot.writeBrs; split <;> rfl

@[simp] theorem Slot.writeBrs_rtr (s : Slot) (v : Bool) :
    (s.writeBrs v).rtr = s.rtr := by unfold Slot.writeBrs; split <;> rfl

@[simp] theorem Slot.writeBrs_esi (s : Slot) (v : Bool) :
    (s.writeBrs v).esi = s.esi := by unfold Slot.writeBrs; split <;> rfl

@[simp] theorem Slot.writeBrs_marker (s : Slot) (v : Bool) :
    (s.writeBrs v).marker = s.marker := by unfold Slot.writeBrs; split <;> rfl

@[simp] theorem Slot.writeBrs_user (s : Slot) (v : Bool) :
    (s.writeBrs v).user = s.user := by unfold Slot.writeBrs; split <;> rfl

@[simp] theorem Slot.writeEsi_fmt (s : Slot) (v : Bool) :
    (s.writeEsi v).fmt = s.fmt := by unfold Slot.writeEsi; split <;> rfl

@[simp] theorem Slot.writeEsi_id (s : Slot) (v : Bool) :
    (s.writeEsi v).id = s.id := by unfold Slot.writeEsi; split <;> rfl

@[simp] theorem Slot.writeEsi_dlc (s : Slot) (v : Bool) :
    (s.writeEsi v).dlc = s.dlc := by unfold Slot.writeEsi; split <;> rfl

@[simp] theorem Slot.writeEsi_p (s : Slot) (v : Bool) :
    (s.writeEsi v).p = s.p := by unfold Slot.writeEsi; split <;> rfl

@[simp] theorem Slot.writeEsi_rtr (s : Slot) (v : Bool) :
    (s.writeEsi v).rtr = s.rtr := by unfold Slot.writeEsi; split <;> rfl

@[simp] theorem Slot.writeEsi_brs (s : Slot) (v : Bool) :
    (s.writeEsi v).brs = s.brs := by unfold Slot.writeEsi; split <;> rfl

@[simp] theorem Slot.writeEsi_marker (s : Slot) (v : Bool) :
    (s.writeEsi v).marker = s.marker := by unfold Slot.writeEsi; split <;> rfl

@[simp] theorem Slot.writeEsi_user (s : Slot) (v : Bool) :
    (s.writeEsi v).user = s.user := by unfold Slot.writeEsi; split <;> rfl

@[simp] theorem Slot.memWrite_fmt (s : Slot) (pos n : Nat) (v : Word) (e : Endian) :
    (s.memWrite pos n v e).fmt = s.fmt := by unfold Slot.memWrite; split <;> rfl

@[simp] theorem Slot.memWrite_id (s : Slot) (pos n : Nat) (v : Word) (e : Endian) :
    (s.memWrite pos n v e).id = s.id := by unfold Slot.memWrite; split <;> rfl

@[simp] theorem Slot.memWrite_dlc (s : Slot) (pos n : Nat) (v : Word) (e : Endian) :
    (s.memWrite pos n v e).dlc = s.dlc := by unfold Slot.memWrite; split <;> rfl

@[simp] theorem Slot.memWrite_rtr (s : Slot) (pos n : Nat) (v : Word) (e : Endian) :
    (s.memWrite pos n v e).rtr = s.rtr := by unfold Slot.memWrite; split <;> rfl

@[simp] theorem Slot.memWrite_brs (s : Slot) (pos n : Nat) (v : Word) (e : Endian) :
    (s.memWrite pos n v e).brs = s.brs := by unfold Slot.memWrite; split <;> rfl

@[simp] theorem Slot.memWrite_esi (s : Slot) (pos n : Nat) (v : Word) (e : Endian) :
    (s.memWrite pos n v e).esi = s.esi := by unfold Slot.memWrite; split <;> rfl

@[simp] theorem Slot.memWrite_marker (s : Slot) (pos n : Nat) (v : Word) (e : Endian) :
    (s.memWrite pos n v e).marker = s.marker := by unfold Slot.memWrite; split <;> rfl

@[simp] theorem Slot.memWrite_user (s : Slot) (pos n : Nat) (v : Word) (e : Endian) :
    (s.memWrite pos n v e).user = s.user := by unfold Slot.memWrite; split <;> rfl

theorem Slot.writeRtr_eq (s : Slot) (v : Bool) :
    s.writeRtr v = { s with rtr := if isFD s.fmt = false then v else s.rtr } := by
  unfold Slot.writeRtr; cases h : isFD s.fmt <;> simp

theorem Slot.writeBrs_eq (s : Slot) (v : Bool) :
    s.writeBrs v = { s with brs := if isFD s.fmt = true then v else s.brs } := by
  unfold Slot.writeBrs; cases h : isFD s.fmt <;> simp

theorem Slot.writeEsi_eq (s : Slot) (v : Bool) :
    s.writeEsi v = { s with esi := if isFD s.fmt = true then v else s.esi } := by
  unfold Slot.writeEsi; cases h : isFD s.fmt <;> simp

@[simp] theorem Slot.memWrite_size (s : Slot) (pos n : Nat) (v : Word) (e : Endian) :
    (s.memWrite pos n v e).size = s.size := by simp [Slot.size]

end Sys2Proof.Machine
end

