-- ==== Sys2Proof/Laws/Frame.lean ====
section
/-! SUPPORT. The helper functions of 00_scope.md R13 and the DLC table: bounds and values. -/

namespace Sys2Proof.Machine

theorem isFD_eq_code_bit (f : Format) : isFD f = f.code.getLsbD 1 := by cases f <;> rfl

theorem isExt_eq_code_bit (f : Format) : isExt f = f.code.getLsbD 0 := by cases f <;> rfl

theorem mask_eq (f : Format) : mask f = if isExt f then 0x1FFFFFFF else 0x000007FF := rfl

theorem dlcMax_eq (f : Format) : dlcMax f = if isFD f then 15 else 8 := rfl

theorem lenMax_eq (f : Format) : lenMax f = if isFD f then 64 else 8 := rfl

theorem dlcMax_le (f : Format) : dlcMax f ≤ 15 := by cases f <;> decide

theorem mask_idem (x : Word) (f : Format) : x &&& mask f &&& mask f = x &&& mask f := by
  rw [BitVec.and_assoc, BitVec.and_self]

theorem mask_inv (x : Word) (f : Format) : x &&& mask f &&& ~~~(mask f) = 0 := by
  rw [BitVec.and_assoc]; cases f <;> simp [mask, isExt, Config.maskExt, Config.maskStd]

/-- An identifier inside the mask is kept by masking (10_state.md R22). -/
theorem mask_of_inv {x : Word} {f : Format} (h : x &&& ~~~(mask f) = 0) : x &&& mask f = x := by
  have hx : x &&& (mask f ||| ~~~(mask f)) = x := by
    have : mask f ||| ~~~(mask f) = BitVec.allOnes 32 := by cases f <;> decide
    rw [this, BitVec.and_allOnes]
  rw [BitVec.and_or_distrib_left, h] at hx
  simpa using hx

/-! ## The DLC table -/

theorem dlcToLen_small (f : Format) (d : BitVec 4) (h : d.toNat ≤ 8) : dlcToLen f d = d.toNat := by
  have : ∀ n, n ≤ 8 → (lengthRow f)[n]? = some n := by
    intro n hn
    cases f <;> (rw [lengthRow]; simp only [isFD]; interval_cases n <;> rfl)
  unfold dlcToLen
  rw [this _ h]

theorem dlcToLen_fd (f : Format) (d : BitVec 4) (h : isFD f = true) :
    dlcToLen f d = [0, 1, 2, 3, 4, 5, 6, 7, 8, 12, 16, 20, 24, 32, 48, 64].getD d.toNat 0 := by
  have hd : d.toNat < 16 := d.isLt
  unfold dlcToLen lengthRow
  rw [if_pos h]
  generalize d.toNat = n at hd ⊢
  interval_cases n <;> rfl

/-- The length is in 0..64 (10_state.md R29), at a dash too. -/
theorem dlcToLen_le (f : Format) (d : BitVec 4) : dlcToLen f d ≤ 64 := by
  by_cases h : isFD f = true
  · rw [dlcToLen_fd f d h]
    have hd : d.toNat < 16 := d.isLt
    generalize d.toNat = n at hd ⊢
    interval_cases n <;> decide
  · by_cases hd : d.toNat ≤ 8
    · rw [dlcToLen_small f d hd]; omega
    · have : (lengthRow f)[d.toNat]? = none := by
        simp only [lengthRow, if_neg h, List.getElem?_eq_none_iff, List.length_cons,
          List.length_nil]
        omega
      unfold dlcToLen
      rw [this]
      exact Nat.le_of_lt_succ (Config.dashLength d).isLt

theorem Slot.size_le (s : Slot) : s.size ≤ 64 := dlcToLen_le _ _

/-- A DLC of at most 8 is its own length, in both families. -/
theorem Slot.size_le_eight {s : Slot} (hd : s.dlc.toNat ≤ 8) : s.size ≤ 8 := by
  unfold Slot.size; rw [dlcToLen_small _ _ hd]; exact hd

theorem clampDlc_toNat (f : Format) (d : Word) : (clampDlc f d).toNat = min d.toNat (dlcMax f) := by
  have := dlcMax_le f
  unfold clampDlc
  rw [BitVec.toNat_ofNat]
  exact Nat.mod_eq_of_lt (by omega)

theorem lenToDlc_classic (f : Format) (n : Nat) (h : isFD f = false) :
    (lenToDlc f n).toNat = min n 8 := by
  unfold lenToDlc
  rw [if_pos h, BitVec.toNat_ofNat]
  exact Nat.mod_eq_of_lt (by omega)

theorem lenToDlc_le (f : Format) (n : Nat) : (lenToDlc f n).toNat ≤ dlcMax f := by
  cases h : isFD f with
  | false => rw [lenToDlc_classic f n h, dlcMax_eq, h]; simp
  | true =>
    have := (lenToDlc f n).isLt
    rw [dlcMax_eq, h]; simp; omega

end Sys2Proof.Machine
end

