-- ==== Sys2Proof/Laws/Memory.lean ====
section
/-! SUPPORT. The payload store: what reads see after writes, and that every operation keeps the
canonical form. -/

namespace Sys2Proof.Machine

@[simp] theorem Memory.read_nil (a : Nat) : Memory.read [] a = 0 := rfl

theorem Memory.read_cell (b : Nat) (w : Byte) (m : Memory) (a : Nat) :
    Memory.read ((b, w) :: m) a = if a = b then w else Memory.read m a := rfl

/-! ## The canonical form -/

theorem Memory.wfFrom_cell (lo a : Nat) (v : Byte) (m : Memory) :
    Memory.wfFrom lo ((a, v) :: m) = true ↔
      lo ≤ a ∧ a < 64 ∧ v ≠ 0 ∧ Memory.wfFrom (a + 1) m = true := by
  simp only [Memory.wfFrom, Bool.and_eq_true, decide_eq_true_eq, bne_iff_ne, ne_eq, and_assoc]
  exact Iff.rfl

theorem Memory.wfFrom_mono {lo hi : Nat} {m : Memory} (h : lo ≤ hi)
    (hm : Memory.wfFrom hi m = true) : Memory.wfFrom lo m = true := by
  cases m with
  | nil => rfl
  | cons c rest =>
    obtain ⟨a, v⟩ := c
    rw [Memory.wfFrom_cell] at hm ⊢
    exact ⟨by omega, hm.2⟩

/-- Below its lowest position a canonical store reads 0. -/
theorem Memory.read_below {lo : Nat} {m : Memory} (hm : Memory.wfFrom lo m = true) {a : Nat}
    (ha : a < lo) : Memory.read m a = 0 := by
  induction m generalizing lo with
  | nil => rfl
  | cons c rest ih =>
    obtain ⟨b, w⟩ := c
    rw [Memory.wfFrom_cell] at hm
    rw [Memory.read_cell, if_neg (by omega)]
    exact ih hm.2.2.2 (by omega)

/-- Outside the 64 positions of the store a canonical store reads 0. -/
theorem Memory.read_outside {lo : Nat} {m : Memory} (hm : Memory.wfFrom lo m = true) {a : Nat}
    (ha : 64 ≤ a) : Memory.read m a = 0 := by
  induction m generalizing lo with
  | nil => rfl
  | cons c rest ih =>
    obtain ⟨b, w⟩ := c
    rw [Memory.wfFrom_cell] at hm
    rw [Memory.read_cell, if_neg (by omega)]
    exact ih hm.2.2.2

/-! ## cons -/

theorem Memory.cons_wfFrom {lo a : Nat} {v : Byte} {m : Memory} (hlo : lo ≤ a) (ha : a < 64)
    (hm : Memory.wfFrom (a + 1) m = true) : Memory.wfFrom lo (Memory.cons a v m) = true := by
  unfold Memory.cons
  split
  · exact Memory.wfFrom_mono (by omega) hm
  · exact (Memory.wfFrom_cell ..).2 ⟨hlo, ha, ‹_›, hm⟩

theorem Memory.read_cons {a : Nat} {v : Byte} {m : Memory} (hm : Memory.wfFrom (a + 1) m = true)
    (x : Nat) : Memory.read (Memory.cons a v m) x = if x = a then v else Memory.read m x := by
  unfold Memory.cons
  split
  · split
    · subst_vars; exact Memory.read_below hm (by omega)
    · rfl
  · rfl

/-! ## write -/

theorem Memory.read_erase (m : Memory) (a x : Nat) :
    Memory.read (m.erase a) x = if x = a then 0 else Memory.read m x := by
  induction m with
  | nil => simp [Memory.erase]
  | cons c rest ih =>
    obtain ⟨b, w⟩ := c
    unfold Memory.erase at ih ⊢
    by_cases hb : b = a
    · subst hb
      simp only [List.filter_cons, bne_self_eq_false, Bool.false_eq_true, if_false, ih,
        Memory.read_cell]
      split <;> simp_all
    · simp only [List.filter_cons, bne_iff_ne, ne_eq, hb, not_false_eq_true, if_true,
        Memory.read_cell, ih]
      split <;> split <;> first | rfl | omega

theorem Memory.read_insert (m : Memory) (a : Nat) (v : Byte) (h : ∀ c ∈ m, c.1 ≠ a) (x : Nat) :
    Memory.read (m.insert a v) x = if x = a then v else Memory.read m x := by
  induction m with
  | nil => rfl
  | cons c rest ih =>
    obtain ⟨b, w⟩ := c
    have hb : b ≠ a := h (b, w) (by simp)
    have ih := ih fun c hc => h c (by simp [hc])
    unfold Memory.insert
    split
    · rfl
    · rw [Memory.read_cell, Memory.read_cell, ih]
      split <;> split <;> first | rfl | omega

theorem Memory.erase_ne (m : Memory) (a : Nat) : ∀ c ∈ m.erase a, c.1 ≠ a := by
  simp [Memory.erase]

/-- A read after a write gives the value written there and the old byte elsewhere, in every store. -/
theorem Memory.read_write (m : Memory) (a : Nat) (v : Byte) (x : Nat) :
    Memory.read (m.write a v) x = if x = a then v else Memory.read m x := by
  unfold Memory.write
  split
  · subst_vars; exact Memory.read_erase m a x
  · rw [Memory.read_insert _ _ _ (Memory.erase_ne m a), Memory.read_erase]
    split <;> rfl

theorem Memory.erase_wfFrom {lo : Nat} {m : Memory} (hm : Memory.wfFrom lo m = true) (a : Nat) :
    Memory.wfFrom lo (m.erase a) = true := by
  induction m generalizing lo with
  | nil => rfl
  | cons c rest ih =>
    obtain ⟨b, w⟩ := c
    have hc := (Memory.wfFrom_cell ..).1 hm
    have ih := ih hc.2.2.2
    unfold Memory.erase at ih ⊢
    by_cases hb : b = a
    · simp only [List.filter_cons, hb, bne_self_eq_false, Bool.false_eq_true, if_false]
      subst hb
      exact Memory.wfFrom_mono (by omega) ih
    · simp only [List.filter_cons, bne_iff_ne, ne_eq, hb, not_false_eq_true, if_true]
      exact (Memory.wfFrom_cell ..).2 ⟨hc.1, hc.2.1, hc.2.2.1, ih⟩

theorem Memory.insert_wfFrom {lo a : Nat} {v : Byte} {m : Memory} (hm : Memory.wfFrom lo m = true)
    (hne : ∀ c ∈ m, c.1 ≠ a) (hlo : lo ≤ a) (ha : a < 64) (hv : v ≠ 0) :
    Memory.wfFrom lo (m.insert a v) = true := by
  induction m generalizing lo with
  | nil => exact (Memory.wfFrom_cell ..).2 ⟨hlo, ha, hv, rfl⟩
  | cons c rest ih =>
    obtain ⟨b, w⟩ := c
    have hc := (Memory.wfFrom_cell ..).1 hm
    have hb : b ≠ a := hne (b, w) (by simp)
    unfold Memory.insert
    split
    · exact (Memory.wfFrom_cell ..).2
        ⟨hlo, ha, hv, (Memory.wfFrom_cell ..).2 ⟨by omega, hc.2⟩⟩
    · exact (Memory.wfFrom_cell ..).2
        ⟨hc.1, hc.2.1, hc.2.2.1, ih hc.2.2.2 (fun c h => hne c (by simp [h])) (by omega)⟩

/-- Every write inside the store keeps the canonical form. -/
theorem Memory.write_wf {a : Nat} {v : Byte} {m : Memory} (hm : m.wf = true) (ha : a < 64) :
    (m.write a v).wf = true := by
  unfold Memory.write
  split
  · exact Memory.erase_wfFrom hm a
  · exact Memory.insert_wfFrom (Memory.erase_wfFrom hm a) (Memory.erase_ne m a) (Nat.zero_le a) ha ‹_›

/-! ## Lists of bytes -/

theorem Memory.read_writeList (m : Memory) (a : Nat) (vs : List Byte) (x : Nat) :
    Memory.read (m.writeList a vs) x =
      if a ≤ x ∧ x < a + vs.length then vs.getD (x - a) 0 else Memory.read m x := by
  induction vs generalizing m a with
  | nil => simp only [Memory.writeList, List.length_nil]; rw [if_neg (by omega)]
  | cons v vs ih =>
    simp only [Memory.writeList, ih, Memory.read_write, List.length_cons]
    by_cases hx : x = a
    · subst hx
      rw [if_neg (by omega), if_pos rfl, if_pos (by omega)]
      simp
    · by_cases h : a + 1 ≤ x ∧ x < a + 1 + vs.length
      · rw [if_pos h, if_pos (by omega)]
        obtain ⟨k, rfl⟩ : ∃ k, x = a + 1 + k := ⟨x - (a + 1), by omega⟩
        rw [show a + 1 + k - (a + 1) = k by omega, show a + 1 + k - a = k + 1 by omega]
        rfl
      · rw [if_neg h, if_neg hx, if_neg (by omega)]

theorem Memory.writeList_wf {m : Memory} (hm : m.wf = true) (a : Nat) (vs : List Byte)
    (h : a + vs.length ≤ 64) : (m.writeList a vs).wf = true := by
  induction vs generalizing m a with
  | nil => exact hm
  | cons v vs ih =>
    simp only [List.length_cons] at h
    exact ih (Memory.write_wf hm (by omega)) _ (by omega)

/-! ## Stores given by a function -/

theorem Memory.ofFnFrom_wfFrom (f : Nat → Byte) (a n : Nat) (h : a + n ≤ 64) :
    Memory.wfFrom a (Memory.ofFnFrom f a n) = true := by
  induction n generalizing a with
  | zero => rfl
  | succ n ih => exact Memory.cons_wfFrom (Nat.le_refl a) (by omega) (ih (a + 1) (by omega))

theorem Memory.read_ofFnFrom (f : Nat → Byte) (a n : Nat) (h : a + n ≤ 64) (x : Nat) :
    Memory.read (Memory.ofFnFrom f a n) x = if a ≤ x ∧ x < a + n then f x else 0 := by
  induction n generalizing a with
  | zero => simp only [Memory.ofFnFrom, Memory.read_nil]; rw [if_neg (by omega)]
  | succ n ih =>
    rw [Memory.ofFnFrom, Memory.read_cons (Memory.ofFnFrom_wfFrom f _ _ (by omega)),
      ih _ (by omega)]
    by_cases hx : x = a
    · subst hx; rw [if_pos rfl, if_pos (by omega)]
    · rw [if_neg hx]
      by_cases h' : a + 1 ≤ x ∧ x < a + 1 + n
      · rw [if_pos h', if_pos (by omega)]
      · rw [if_neg h', if_neg (by omega)]

theorem Memory.ofFn_wf (f : Nat → Byte) : (Memory.ofFn f).wf = true :=
  Memory.ofFnFrom_wfFrom f 0 64 (by omega)

theorem Memory.read_ofFn (f : Nat → Byte) (x : Nat) :
    Memory.read (Memory.ofFn f) x = if x < 64 then f x else 0 := by
  unfold Memory.ofFn Config.payloadStore
  rw [Memory.read_ofFnFrom f 0 64 (by omega)]
  by_cases h : x < 64
  · rw [if_pos h, if_pos (by omega)]
  · rw [if_neg h, if_neg (by omega)]

/-! ## Zeroing a range -/

theorem Memory.zeroRange_wfFrom {a : Nat} {m : Memory} (hm : Memory.wfFrom a m = true)
    (lo hi : Nat) : Memory.wfFrom a (m.zeroRange lo hi) = true := by
  induction m generalizing a with
  | nil => rfl
  | cons c rest ih =>
    obtain ⟨b, w⟩ := c
    have hc := (Memory.wfFrom_cell ..).1 hm
    have ih := ih hc.2.2.2
    unfold Memory.zeroRange at ih ⊢
    rw [List.filter_cons]
    split
    · exact (Memory.wfFrom_cell ..).2 ⟨hc.1, hc.2.1, hc.2.2.1, ih⟩
    · exact Memory.wfFrom_mono (by omega) ih

/-- Zeroing a range keeps the canonical form. -/
theorem Memory.zeroRange_wf {m : Memory} (hm : m.wf = true) (lo hi : Nat) :
    (m.zeroRange lo hi).wf = true :=
  Memory.zeroRange_wfFrom hm lo hi

/-! ## Equal reads, equal stores -/

theorem Memory.ext_wfFrom {lo : Nat} {m m' : Memory} (hm : Memory.wfFrom lo m = true)
    (hm' : Memory.wfFrom lo m' = true) (h : ∀ a, Memory.read m a = Memory.read m' a) : m = m' := by
  induction m generalizing lo m' with
  | nil =>
    cases m' with
    | nil => rfl
    | cons c' rest' =>
      obtain ⟨b', w'⟩ := c'
      have hc' := (Memory.wfFrom_cell ..).1 hm'
      have := h b'
      rw [Memory.read_cell, if_pos rfl, Memory.read_nil] at this
      exact absurd this.symm hc'.2.2.1
  | cons c rest ih =>
    obtain ⟨b, w⟩ := c
    have hc := (Memory.wfFrom_cell ..).1 hm
    cases m' with
    | nil =>
      have := h b
      rw [Memory.read_cell, if_pos rfl, Memory.read_nil] at this
      exact absurd this hc.2.2.1
    | cons c' rest' =>
      obtain ⟨b', w'⟩ := c'
      have hc' := (Memory.wfFrom_cell ..).1 hm'
      have key : b = b' := by
        rcases Nat.lt_trichotomy b b' with hlt | heq | hgt
        · have := h b
          rw [Memory.read_cell, if_pos rfl, Memory.read_cell, if_neg (by omega),
            Memory.read_below hc'.2.2.2 (by omega)] at this
          exact absurd this hc.2.2.1
        · exact heq
        · have := h b'
          rw [Memory.read_cell, if_neg (by omega), Memory.read_below hc.2.2.2 (by omega),
            Memory.read_cell, if_pos rfl] at this
          exact absurd this.symm hc'.2.2.1
      subst key
      have hw : w = w' := by
        have := h b
        rwa [Memory.read_cell, if_pos rfl, Memory.read_cell, if_pos rfl] at this
      subst hw
      rw [ih hc.2.2.2 hc'.2.2.2 fun a => ?_]
      by_cases ha : a = b
      · subst ha
        rw [Memory.read_below hc.2.2.2 (by omega), Memory.read_below hc'.2.2.2 (by omega)]
      · have := h a
        rwa [Memory.read_cell, if_neg ha, Memory.read_cell, if_neg ha] at this

/-- Canonical stores that read alike are equal. -/
theorem Memory.ext_wf {m m' : Memory} (hm : m.wf = true) (hm' : m'.wf = true)
    (h : ∀ a, Memory.read m a = Memory.read m' a) : m = m' :=
  Memory.ext_wfFrom hm hm' h

end Sys2Proof.Machine
end

