-- ==== Sys2Proof/Laws/Payload.lean ====
section
/-! SUPPORT. `MemRead` and `MemWrite` (20_memory.md R53, R54): bytes as numbers, what a read returns
and what a write leaves. -/

namespace Sys2Proof.Machine

/-! ## Bytes and numbers -/

theorem joinBytes_one (a : Byte) : joinBytes [a] = a.setWidth 32 := by simp [joinBytes]

theorem joinBytes_two (a b : Byte) : joinBytes [a, b] = (a ++ b : BitVec 16).setWidth 32 := by
  apply BitVec.eq_of_getLsbD_eq
  intro i hi
  simp only [joinBytes, List.foldl, BitVec.getLsbD_or, BitVec.getLsbD_shiftLeft,
    BitVec.getLsbD_setWidth, BitVec.getLsbD_append]
  interval_cases i <;> simp

theorem joinBytes_four (a b c d : Byte) :
    joinBytes [a, b, c, d] = (a ++ b ++ c ++ d : BitVec 32) := by
  apply BitVec.eq_of_getLsbD_eq
  intro i hi
  simp only [joinBytes, List.foldl, BitVec.getLsbD_or, BitVec.getLsbD_shiftLeft,
    BitVec.getLsbD_setWidth, BitVec.getLsbD_append]
  interval_cases i <;> simp

theorem splitBytes_length (v : Word) (n : Nat) : (splitBytes v n).length = n := by
  induction n with
  | zero => rfl
  | succ n ih => simp [splitBytes, ih]

theorem orderBytes_length (e : Endian) (bs : List Byte) : (orderBytes e bs).length = bs.length := by
  cases e <;> simp [orderBytes]

theorem orderBytes_orderBytes (e : Endian) (bs : List Byte) :
    orderBytes e (orderBytes e bs) = bs := by
  cases e <;> simp [orderBytes]

theorem Memory.readList_length (m : Memory) (a n : Nat) : (m.readList a n).length = n := by
  induction n generalizing a with
  | zero => rfl
  | succ n ih => simp [Memory.readList, ih]

/-- A list read depends only on the bytes it covers. -/
theorem Memory.readList_congr {m m' : Memory} {a n : Nat}
    (h : ∀ x, a ≤ x → x < a + n → Memory.read m x = Memory.read m' x) :
    m.readList a n = m'.readList a n := by
  induction n generalizing a with
  | zero => rfl
  | succ n ih =>
    simp only [Memory.readList]
    rw [h a (by omega) (by omega), ih fun x h1 h2 => h x (by omega) (by omega)]

/-- Reading back what was just written returns it. -/
theorem Memory.readList_writeList (m : Memory) (a : Nat) (vs : List Byte) :
    (m.writeList a vs).readList a vs.length = vs := by
  induction vs generalizing m a with
  | nil => rfl
  | cons v vs ih =>
    simp only [Memory.writeList, List.length_cons, Memory.readList]
    rw [ih, Memory.read_writeList, if_neg (by omega), Memory.read_write, if_pos rfl]

/-! ## MemRead -/

theorem Slot.memRead_out {s : Slot} {pos n : Nat} (e : Endian) (h : s.size < pos + n) :
    s.memRead pos n e = 0 := by
  unfold Slot.memRead Slot.inRange
  rw [if_neg (by simpa using h)]

theorem Slot.memRead_in {s : Slot} {pos n : Nat} (e : Endian) (h : pos + n ≤ s.size) :
    s.memRead pos n e = joinBytes (orderBytes e (s.p.readList pos n)) := by
  unfold Slot.memRead Slot.inRange
  rw [if_pos (by simpa using h)]

/-- A read depends only on the size and on the visible bytes it covers. -/
theorem Slot.memRead_congr {s s' : Slot} (hs : s.size = s'.size)
    (h : ∀ a, a < s.size → s.p.read a = s'.p.read a) (pos n : Nat) (e : Endian) :
    s.memRead pos n e = s'.memRead pos n e := by
  by_cases hr : pos + n ≤ s.size
  · rw [Slot.memRead_in e hr, Slot.memRead_in e (hs ▸ hr),
      Memory.readList_congr fun x _ h2 => h x (by omega)]
  · rw [Slot.memRead_out e (by omega), Slot.memRead_out e (by omega)]

/-! ## MemWrite -/

theorem Slot.memWrite_out {s : Slot} {pos n : Nat} (v : Word) (e : Endian) (h : s.size < pos + n) :
    s.memWrite pos n v e = s := by
  unfold Slot.memWrite Slot.inRange
  rw [if_neg (by simpa using h)]

theorem Slot.memWrite_in {s : Slot} {pos n : Nat} (v : Word) (e : Endian) (h : pos + n ≤ s.size) :
    s.memWrite pos n v e = { s with p := s.p.writeList pos (orderBytes e (splitBytes v n)) } := by
  unfold Slot.memWrite Slot.inRange
  rw [if_pos (by simpa using h)]

/-- What every position reads after a write. -/
theorem Slot.memWrite_read (s : Slot) (pos n : Nat) (v : Word) (e : Endian) (a : Nat) :
    (s.memWrite pos n v e).p.read a =
      if pos + n ≤ s.size ∧ pos ≤ a ∧ a < pos + n then
        (orderBytes e (splitBytes v n)).getD (a - pos) 0
      else s.p.read a := by
  by_cases h : pos + n ≤ s.size
  · rw [Slot.memWrite_in v e h, Memory.read_writeList, orderBytes_length, splitBytes_length]
    by_cases h' : pos ≤ a ∧ a < pos + n
    · rw [if_pos h', if_pos ⟨h, h'⟩]
    · rw [if_neg h', if_neg fun hc => h' hc.2]
  · rw [Slot.memWrite_out v e (by omega), if_neg fun hc => h hc.1]

/-- A write keeps the store canonical, from every slot. -/
theorem Slot.memWrite_wf {s : Slot} (hm : s.p.wf = true) (pos n : Nat) (v : Word) (e : Endian) :
    (s.memWrite pos n v e).p.wf = true := by
  by_cases h : pos + n ≤ s.size
  · rw [Slot.memWrite_in v e h]
    refine Memory.writeList_wf hm _ _ ?_
    rw [orderBytes_length, splitBytes_length]
    have := s.size_le
    omega
  · rwa [Slot.memWrite_out v e (by omega)]

/-- A write twice is the write once. -/
theorem Slot.memWrite_idem {s : Slot} (hm : s.p.wf = true) (pos n : Nat) (v : Word) (e : Endian) :
    (s.memWrite pos n v e).memWrite pos n v e = s.memWrite pos n v e := by
  by_cases h : pos + n ≤ s.size
  · have hp : ((s.memWrite pos n v e).memWrite pos n v e).p = (s.memWrite pos n v e).p := by
      refine Memory.ext_wf (Slot.memWrite_wf (Slot.memWrite_wf hm ..) ..) (Slot.memWrite_wf hm ..)
        fun a => ?_
      rw [Slot.memWrite_read, Slot.memWrite_read, Slot.memWrite_size]
      split <;> rfl
    have hsz : (s.memWrite pos n v e).size = s.size := Slot.memWrite_size ..
    rw [Slot.memWrite_in v e (s := s.memWrite pos n v e) (by omega)] at hp ⊢
    simp only at hp
    rw [hp]
  · rw [Slot.memWrite_out (s := s) v e (by omega), Slot.memWrite_out v e (by omega)]

end Sys2Proof.Machine
end

