-- ==== Sys2Proof/Laws/Image.lean ====
section
/-! SUPPORT. The wire image: bytes of an image, the fields of `Image(s)`, and what `Valid` says. -/

namespace Sys2Proof.Machine

theorem imgByte_eq_getElem (img : Image) (k : Nat) (h : k < 72) : imgByte img k = img[k] := by
  unfold imgByte
  rw [List.getD_eq_getElem?_getD, List.getElem?_eq_getElem (by simpa using h)]
  simp

@[simp] theorem imgByte_imgOfFn (f : Nat → Byte) (k : Nat) (h : k < 72) :
    imgByte (imgOfFn f) k = f k := by
  rw [imgByte_eq_getElem _ _ h]; simp [imgOfFn]

@[simp] theorem imgByte_zeroImage (k : Nat) (h : k < 72) : imgByte zeroImage k = 0 := by
  rw [imgByte_eq_getElem _ _ h]; simp [zeroImage]

/-- Images with the same 72 bytes are equal. -/
theorem imgByte_ext {a b : Image} (h : ∀ k, k < 72 → imgByte a k = imgByte b k) : a = b := by
  apply Vector.ext
  intro k hk
  rw [← imgByte_eq_getElem a k hk, ← imgByte_eq_getElem b k hk]
  exact h k hk

theorem imgByte_imageOf (s : Slot) (k : Nat) (h : k < 72) :
    imgByte (imageOf s) k = imageByte s k := imgByte_imgOfFn _ k h

theorem imgByte_imageOf_payload (s : Slot) (i : Nat) (h : i < 64) :
    imgByte (imageOf s) (8 + i) = s.visible i := by
  rw [imgByte_imageOf s _ (by omega), Nat.add_comm]
  rfl

theorem flagBit_eq_ofBool (v : Bool) : flagBit v = BitVec.ofBool v := by cases v <;> rfl

/-! ## The fields of `Image(s)` (47_wire.md R242) -/

@[simp] theorem imgFmt_imageOf (s : Slot) : imgFmt (imageOf s) = s.fmt := by
  unfold imgFmt
  rw [imgByte_imageOf s 1 (by omega)]
  cases h : s.fmt <;> cases h1 : s.rtr <;> cases h2 : s.brs <;> cases h3 : s.esi <;>
    simp only [imageByte, flagsByte, h, h1, h2, h3] <;> decide

@[simp] theorem imgRtr_imageOf (s : Slot) : imgRtr (imageOf s) = s.rtr := by
  unfold imgRtr
  rw [imgByte_imageOf s 1 (by omega)]
  cases h : s.fmt <;> cases h1 : s.rtr <;> cases h2 : s.brs <;> cases h3 : s.esi <;>
    simp only [imageByte, flagsByte, h, h1, h2, h3] <;> decide

@[simp] theorem imgBrs_imageOf (s : Slot) : imgBrs (imageOf s) = s.brs := by
  unfold imgBrs
  rw [imgByte_imageOf s 1 (by omega)]
  cases h : s.fmt <;> cases h1 : s.rtr <;> cases h2 : s.brs <;> cases h3 : s.esi <;>
    simp only [imageByte, flagsByte, h, h1, h2, h3] <;> decide

@[simp] theorem imgEsi_imageOf (s : Slot) : imgEsi (imageOf s) = s.esi := by
  unfold imgEsi
  rw [imgByte_imageOf s 1 (by omega)]
  cases h : s.fmt <;> cases h1 : s.rtr <;> cases h2 : s.brs <;> cases h3 : s.esi <;>
    simp only [imageByte, flagsByte, h, h1, h2, h3] <;> decide

@[simp] theorem imgDlc_imageOf (s : Slot) : imgDlc (imageOf s) = s.dlc := by
  unfold imgDlc
  rw [imgByte_imageOf s 2 (by omega)]
  simp only [imageByte]
  generalize s.dlc = d
  revert d; decide

/-- The four bytes of a word, most significant first, are the word. -/
theorem byteOf_append (x : Word) :
    (byteOf x 3 ++ byteOf x 2 ++ byteOf x 1 ++ byteOf x 0 : BitVec 32) = x := by
  apply BitVec.eq_of_getLsbD_eq
  intro i hi
  simp only [byteOf, BitVec.getLsbD_append, BitVec.getLsbD_extractLsb']
  interval_cases i <;> simp

@[simp] theorem imgId_imageOf (s : Slot) : imgId (imageOf s) = s.id := by
  unfold imgId
  rw [imgByte_imageOf s 4 (by omega), imgByte_imageOf s 5 (by omega),
    imgByte_imageOf s 6 (by omega), imgByte_imageOf s 7 (by omega)]
  exact byteOf_append s.id

/-- The bytes of a word put together from four bytes. -/
theorem byteOf_of_append (a b c d : Byte) :
    byteOf (a ++ b ++ c ++ d : BitVec 32) 3 = a ∧ byteOf (a ++ b ++ c ++ d : BitVec 32) 2 = b ∧
      byteOf (a ++ b ++ c ++ d : BitVec 32) 1 = c ∧ byteOf (a ++ b ++ c ++ d : BitVec 32) 0 = d := by
  refine ⟨?_, ?_, ?_, ?_⟩ <;>
    (apply BitVec.eq_of_getLsbD_eq
     intro i hi
     simp only [byteOf, BitVec.getLsbD_append, BitVec.getLsbD_extractLsb']
     interval_cases i <;> simp)

/-! ## Valid (47_wire.md R241) -/

theorem validV6_iff (img : Image) : validV6 img = true ↔
    ∀ i, dlcToLen (imgFmt img) (imgDlc img) ≤ i → i < 64 → imgByte img (8 + i) = 0 := by
  unfold validV6 Config.payloadStore
  simp only [List.all_eq_true, List.mem_range, Bool.or_eq_true, decide_eq_true_eq, beq_iff_eq]
  constructor
  · intro h i h1 h2
    rcases h i h2 with h | h
    · omega
    · exact h
  · intro h i h2
    by_cases h1 : i < dlcToLen (imgFmt img) (imgDlc img)
    · exact .inl h1
    · exact .inr (h i (by omega) h2)

theorem validImage_iff (img : Image) : validImage img = true ↔
    validV1 img = true ∧ validV2 img = true ∧ validV3 img = true ∧ validV4 img = true ∧
      validV5 img = true ∧ validV6 img = true := by
  simp only [validImage, Bool.and_eq_true, and_assoc]

/-! ## The slot of an image (47_wire.md R244) -/

@[simp] theorem slotOfImage_fmt (img : Image) : (slotOfImage img).fmt = imgFmt img := rfl

@[simp] theorem slotOfImage_id (img : Image) : (slotOfImage img).id = imgId img := rfl

@[simp] theorem slotOfImage_dlc (img : Image) : (slotOfImage img).dlc = imgDlc img := rfl

@[simp] theorem slotOfImage_rtr (img : Image) : (slotOfImage img).rtr = imgRtr img := rfl

@[simp] theorem slotOfImage_brs (img : Image) : (slotOfImage img).brs = imgBrs img := rfl

@[simp] theorem slotOfImage_esi (img : Image) : (slotOfImage img).esi = imgEsi img := rfl

@[simp] theorem slotOfImage_marker (img : Image) : (slotOfImage img).marker = 0 := rfl

@[simp] theorem slotOfImage_user (img : Image) : (slotOfImage img).user = 0 := rfl

@[simp] theorem slotOfImage_p (img : Image) :
    (slotOfImage img).p = Memory.ofFn fun i => imgByte img (8 + i) := rfl

theorem slotOfImage_size (img : Image) :
    (slotOfImage img).size = dlcToLen (imgFmt img) (imgDlc img) := rfl

theorem slotOfImage_read (img : Image) (i : Nat) :
    (slotOfImage img).p.read i = if i < 64 then imgByte img (8 + i) else 0 := by
  rw [slotOfImage_p, Memory.read_ofFn]

theorem slotOfImage_wf (img : Image) : (slotOfImage img).p.wf = true := by
  rw [slotOfImage_p]; exact Memory.ofFn_wf _

/-- A valid image decodes to a slot with `INV`. -/
theorem slotOfImage_inv {img : Image} (h : validImage img = true) : (slotOfImage img).Inv := by
  obtain ⟨-, -, h3, h4, h5, -⟩ := (validImage_iff img).1 h
  unfold validV5 at h5
  refine ⟨by simpa [validV4] using h4, of_decide_eq_true h3, fun hf => ?_, fun hf => ?_⟩ <;>
    simpa [show isFD (imgFmt img) = _ from hf] using h5

/-- A byte is its reserved bits, flags and format code. -/
theorem flagsByte_of_byte (b : Byte) (h : b.extractLsb' 5 3 = 0) :
    (0#3 ++ flagBit (b.getLsbD 4) ++ flagBit (b.getLsbD 3) ++ flagBit (b.getLsbD 2) ++
      (Format.ofCode (b.extractLsb' 0 2)).code : BitVec 8) = b := by
  revert b; decide

/-- A byte is its reserved nibble and DLC. -/
theorem dlcByte_of_byte (b : Byte) (h : b.extractLsb' 4 4 = 0) :
    (0#4 ++ b.extractLsb' 0 4 : BitVec 8) = b := by
  revert b; decide

/-- Encoding the slot of a valid image gives the image back (47_wire.md R244, R242). -/
theorem imageOf_slotOfImage {img : Image} (h : validImage img = true) :
    imageOf (slotOfImage img) = img := by
  obtain ⟨h1, h2, -, -, -, h6⟩ := (validImage_iff img).1 h
  have h1 : imgByte img 0 = Config.wireVersion := by simpa [validV1] using h1
  simp only [validV2, Bool.and_eq_true, beq_iff_eq] at h2
  obtain ⟨⟨h2a, h2b⟩, h2c⟩ := h2
  have hid := byteOf_of_append (imgByte img 4) (imgByte img 5) (imgByte img 6) (imgByte img 7)
  apply imgByte_ext
  intro k hk
  rw [imgByte_imageOf _ _ hk]
  match k with
  | 0 => exact h1.symm
  | 1 => exact flagsByte_of_byte _ h2a
  | 2 => exact dlcByte_of_byte _ h2b
  | 3 => exact h2c.symm
  | 4 => exact hid.1
  | 5 => exact hid.2.1
  | 6 => exact hid.2.2.1
  | 7 => exact hid.2.2.2
  | i + 8 =>
    show (slotOfImage img).visible i = _
    unfold Slot.visible
    rw [slotOfImage_read, if_pos (show i < 64 by omega), Nat.add_comm i 8]
    split
    · rfl
    · exact ((validV6_iff img).1 h6 i (by rw [← slotOfImage_size]; omega)
        (by omega)).symm

end Sys2Proof.Machine
end

