-- ==== Sys2Proof/Laws/Exec.lean ====
section
/-! SUPPORT. What a command can do, said once: it answers a read, updates its slot, returns an image or
reports a protocol error; and what each update keeps. -/

namespace Sys2Proof.Machine

/-! ## The invariant of a slot, update by update (10_state.md R30) -/

theorem Slot.cleared_inv : Slot.cleared.Inv := by decide

theorem Slot.constructed_inv (f : Format) (id dlc : Word) : (Slot.constructed f id dlc).Inv := by
  refine ⟨mask_inv _ _, ?_, fun _ => rfl, fun _ => ⟨rfl, rfl⟩⟩
  show (clampDlc f dlc).toNat ≤ dlcMax f
  rw [clampDlc_toNat]; omega

theorem Slot.setDlc_inv {s : Slot} (h : s.Inv) {d : BitVec 4} (hd : d.toNat ≤ dlcMax s.fmt) :
    (s.setDlc d).Inv := ⟨h.1, hd, h.2.2⟩

theorem Slot.setId_inv {s : Slot} (h : s.Inv) (x : Word) : (s.setId x).Inv :=
  ⟨mask_inv _ _, h.2⟩

theorem Slot.dlcForFormat_le {s : Slot} (h : s.Inv) (f : Format) :
    (s.dlcForFormat f).toNat ≤ dlcMax f := by
  have hd := h.2.1
  unfold Slot.dlcForFormat
  rw [dlcMax_eq] at hd ⊢
  cases h1 : isFD s.fmt <;> cases h2 : isFD f <;> simp only [h1] at hd ⊢
  · simpa using hd
  · simp at hd ⊢; omega
  · by_cases h3 : s.dlc.toNat > 8
    · simp [h3]
    · simp [h3]; omega
  · simpa using hd

theorem Slot.changeFormat_inv {s : Slot} (h : s.Inv) (f : Format) : (s.changeFormat f).Inv := by
  refine ⟨mask_inv _ _, Slot.dlcForFormat_le h f, fun hf => ?_, fun hf => ?_⟩ <;>
    have hs := h.2.2 <;>
    rcases Bool.eq_false_or_eq_true (isFD s.fmt) with h1 | h1 <;>
    simp_all [familyChange]

/-- With INV, a change to the slot's own format changes nothing (41_format.md R121). -/
theorem Slot.changeFormat_self {s : Slot} (h : s.Inv) : s.changeFormat s.fmt = s := by
  have hd : s.dlcForFormat s.fmt = s.dlc := by
    unfold Slot.dlcForFormat
    rw [if_neg]; rintro ⟨h1, h2, -⟩; simp_all
  unfold Slot.changeFormat
  simp only [Slot.grownFrom_eq, Slot.idForFormat_eq, mask_of_inv h.1, hd, familyChange,
    bne_self_eq_false, Bool.false_eq_true, if_false]

theorem Slot.memWrite_inv {s : Slot} (h : s.Inv) (pos n : Nat) (v : Word) (e : Endian) :
    (s.memWrite pos n v e).Inv := by
  simpa only [Slot.Inv, Slot.memWrite_fmt, Slot.memWrite_id, Slot.memWrite_dlc, Slot.memWrite_rtr,
    Slot.memWrite_brs, Slot.memWrite_esi] using h

theorem Slot.writeRtr_inv {s : Slot} (h : s.Inv) (v : Bool) : (s.writeRtr v).Inv := by
  obtain ⟨h1, h2, h3, h4⟩ := h
  rw [Slot.writeRtr_eq]
  exact ⟨h1, h2, fun hf => by simp_all, fun hf => by simp_all⟩

theorem Slot.writeBrs_inv {s : Slot} (h : s.Inv) (v : Bool) : (s.writeBrs v).Inv := by
  obtain ⟨h1, h2, h3, h4⟩ := h
  rw [Slot.writeBrs_eq]
  exact ⟨h1, h2, fun hf => by simp_all, fun hf => by simp_all⟩

theorem Slot.writeEsi_inv {s : Slot} (h : s.Inv) (v : Bool) : (s.writeEsi v).Inv := by
  obtain ⟨h1, h2, h3, h4⟩ := h
  rw [Slot.writeEsi_eq]
  exact ⟨h1, h2, fun hf => by simp_all, fun hf => by simp_all⟩

/-- SETFMT twice to the same format is SETFMT once. -/
theorem Slot.changeFormat_idem (s : Slot) (f : Format) :
    (s.changeFormat f).changeFormat f = s.changeFormat f := by
  have hd : (s.changeFormat f).dlcForFormat f = (s.changeFormat f).dlc := by
    unfold Slot.dlcForFormat
    rw [if_neg]
    rintro ⟨h1, h2, -⟩
    rw [Slot.changeFormat_fmt, h2] at h1
    cases h1
  apply Slot.ext <;> simp [hd, mask_idem, familyChange]

/-! ## DECODE, by its verdict -/

/-- DECODE of a valid image (47_wire.md R244). -/
theorem exec_decode_valid {sl : SlotId} {s : State} (h : validImage s.ports.imgIn = true) :
    exec (.decode sl) s = .next ((s.setSlot sl (slotOfImage s.ports.imgIn)).respond .ok 0) :=
  if_pos h

/-- DECODE of any other image (47_wire.md R244). -/
theorem exec_decode_invalid {sl : SlotId} {s : State} (h : validImage s.ports.imgIn = false) :
    exec (.decode sl) s = .next (s.respond .protocolError 0) :=
  if_neg (by rw [State.imgIn, h]; exact Bool.false_ne_true)

/-! ## The forms of a command -/

/-- A slot update that keeps `INV` and the canonical form. -/
def GoodUpdate (x y : Slot) : Prop :=
  (x.Inv → y.Inv) ∧ (x.p.wf = true → y.p.wf = true)

/-- Everything a command can do, from every state: answer OK with a value; update its own slot; return
an image; or report a protocol error. -/
theorem exec_forms (i : Instr) (s : State) :
    (isRead i = true ∧ ∃ r, exec i s = .next (s.respond .ok r)) ∨
    (∃ sl x, target i = some sl ∧ isRead i = false ∧ GoodUpdate (s.slot sl) x ∧
      exec i s = .next ((s.setSlot sl x).respond .ok 0)) ∨
    (∃ sl, i = .encode sl ∧ exec i s = .next (s.respondImage (imageOf (s.slot sl)))) ∨
    (∃ sl, i = .decode sl ∧ validImage s.ports.imgIn = false ∧
      exec i s = .next (s.respond .protocolError 0)) := by
  cases i with
  | getfmt sl | getid sl | getdlc sl | getsize sl | getrtr sl | getbrs sl | getesi sl | getfdf sl
  | getmrk sl | getusr sl | eq => exact .inl ⟨rfl, _, rfl⟩
  | getb sl pos => exact .inl ⟨rfl, _, rfl⟩
  | geth sl pos e | getw sl pos e => exact .inl ⟨rfl, _, rfl⟩
  | clear sl => exact .inr (.inl ⟨sl, _, rfl, rfl, ⟨fun _ => Slot.cleared_inv, fun _ => rfl⟩, rfl⟩)
  | init sl f =>
    exact .inr (.inl ⟨sl, _, rfl, rfl, ⟨fun _ => Slot.constructed_inv .., fun _ => rfl⟩, rfl⟩)
  | setfmt sl f =>
    exact .inr (.inl ⟨sl, _, rfl, rfl, ⟨fun h => Slot.changeFormat_inv h f, id⟩, rfl⟩)
  | setid sl => exact .inr (.inl ⟨sl, _, rfl, rfl, ⟨fun h => Slot.setId_inv h _, id⟩, rfl⟩)
  | setdlc sl =>
    exact .inr (.inl ⟨sl, (s.slot sl).setDlc (clampDlc (s.slot sl).fmt s.arg0), rfl, rfl,
      ⟨fun h => Slot.setDlc_inv h (by rw [clampDlc_toNat]; omega), id⟩, rfl⟩)
  | setsize sl =>
    exact .inr (.inl ⟨sl, _, rfl, rfl, ⟨fun h => Slot.setDlc_inv h (lenToDlc_le _ _), id⟩, rfl⟩)
  | setb sl pos =>
    exact .inr (.inl ⟨sl, _, rfl, rfl,
      ⟨fun h => Slot.memWrite_inv h .., fun h => Slot.memWrite_wf h ..⟩, rfl⟩)
  | seth sl pos e | setw sl pos e =>
    exact .inr (.inl ⟨sl, _, rfl, rfl,
      ⟨fun h => Slot.memWrite_inv h .., fun h => Slot.memWrite_wf h ..⟩, rfl⟩)
  | setrtr sl v =>
    exact .inr (.inl ⟨sl, _, rfl, rfl,
      ⟨fun h => Slot.writeRtr_inv h v, fun h => by simpa using h⟩, rfl⟩)
  | setbrs sl v =>
    exact .inr (.inl ⟨sl, _, rfl, rfl,
      ⟨fun h => Slot.writeBrs_inv h v, fun h => by simpa using h⟩, rfl⟩)
  | setesi sl v =>
    exact .inr (.inl ⟨sl, _, rfl, rfl,
      ⟨fun h => Slot.writeEsi_inv h v, fun h => by simpa using h⟩, rfl⟩)
  | setmrk sl =>
    exact .inr (.inl ⟨sl, { s.slot sl with marker := s.arg0 }, rfl, rfl, ⟨id, id⟩, rfl⟩)
  | setusr sl =>
    exact .inr (.inl ⟨sl, { s.slot sl with user := s.arg0 }, rfl, rfl, ⟨id, id⟩, rfl⟩)
  | encode sl => exact .inr (.inr (.inl ⟨sl, rfl, rfl⟩))
  | decode sl =>
    cases h : validImage s.ports.imgIn with
    | true =>
      exact .inr (.inl ⟨sl, slotOfImage s.ports.imgIn, rfl, rfl,
        ⟨fun _ => slotOfImage_inv h, fun _ => slotOfImage_wf _⟩, exec_decode_valid h⟩)
    | false => exact .inr (.inr (.inr ⟨sl, rfl, rfl, exec_decode_invalid h⟩))

/-! ## Responses -/

theorem readsOnly_respond (s : State) (r : Word) : ReadsOnly s (s.respond .ok r) r :=
  ⟨⟨rfl, rfl, rfl, rfl, rfl⟩, rfl, rfl, rfl⟩

theorem writesSlot_respond (s : State) (sl : SlotId) (x : Slot) :
    WritesSlot s ((s.setSlot sl x).respond .ok 0) sl x := by
  refine ⟨⟨rfl, rfl, ?_, ?_, ?_⟩, ?_, ?_, ?_⟩ <;> simp

/-- A command returns one response and leaves the model's own fields. -/
theorem exec_responds (i : Instr) (s : State) : ∃ t img, exec i s = .next t ∧ t.host = s.host ∧
    t.ports = s.ports ∧
    t.responses = { status := t.status, res := t.res, image := img } :: s.responses := by
  rcases exec_forms i s with ⟨-, r, h⟩ | ⟨sl, x, -, -, -, h⟩ | ⟨sl, -, h⟩ | ⟨sl, -, -, h⟩ <;>
    exact ⟨_, _, h, by simp, by simp, by simp; rfl⟩

/-- The comparison of EQ as propositions (46_metadata_equality.md R224). -/
theorem Slot.sameFrame_iff (a b : Slot) : Slot.sameFrame a b = true ↔
    a.fmt = b.fmt ∧ a.id = b.id ∧ a.dlc = b.dlc ∧ ∀ i, i < a.size → a.p.read i = b.p.read i := by
  simp [Slot.sameFrame, and_assoc]

theorem bitWord_eq_one (b : Bool) : bitWord b = 1 ↔ b = true := by cases b <;> decide

/-! ## The step -/

theorem step_idle {s : State} (h : s.host = []) : step s = .next s := by
  unfold step; rw [h]; rfl

theorem step_reset {s : State} {rest : List HostEvent} (h : s.host = .reset :: rest) :
    step s = .next (s.applyReset rest) := by
  unfold step; rw [h]

theorem step_request {s : State} {r : Request} {rest : List HostEvent} {i : Instr}
    (h : s.host = .request r :: rest) (hd : decodeWord r.cmd = .ok i) :
    step s = exec i (s.present r rest) := by
  unfold step; rw [h]; simp only [hd]

theorem step_illegal {s : State} {r : Request} {rest : List HostEvent} {e : DecodeError}
    (h : s.host = .request r :: rest) (hd : decodeWord r.cmd = .error e) :
    step s = .next ((s.present r rest).respond .illegal 0) := by
  unfold step; rw [h]; simp only [hd]; rfl

/-- Everything a step can be. -/
theorem step_cases (s : State) :
    (s.host = [] ∧ step s = .next s) ∨
    (∃ rest, s.host = .reset :: rest ∧ step s = .next (s.applyReset rest)) ∨
    (∃ r rest e, s.host = .request r :: rest ∧ decodeWord r.cmd = .error e ∧
      step s = .next ((s.present r rest).respond .illegal 0)) ∨
    (∃ r rest i, s.host = .request r :: rest ∧ decodeWord r.cmd = .ok i ∧
      step s = exec i (s.present r rest)) := by
  match h : s.host with
  | [] => exact .inl ⟨rfl, step_idle h⟩
  | .reset :: rest => exact .inr (.inl ⟨rest, rfl, step_reset h⟩)
  | .request r :: rest =>
    cases hd : decodeWord r.cmd with
    | error e => exact .inr (.inr (.inl ⟨r, rest, e, rfl, hd, step_illegal h hd⟩))
    | ok i => exact .inr (.inr (.inr ⟨r, rest, i, rfl, hd, step_request h hd⟩))

end Sys2Proof.Machine
end

