-- ==== Sys2Proof/Laws/PerInstr.lean ====
section
/-! SUPPORT. Per-instruction facts about the syntax: the canonical word of every instruction passes the
pre-check of 30_encoding.md R78 and carries the opcode of its row (R75). -/

namespace Sys2Proof.Laws.EncodeLegal

/-- The opcode of each row of 30_encoding.md R75. -/
def opcodeOf : Instr → BitVec 5
  | .clear _ => 0x01
  | .init _ _ => 0x02
  | .getfmt _ => 0x03
  | .setfmt _ _ => 0x04
  | .getid _ => 0x05
  | .setid _ => 0x06
  | .getdlc _ => 0x07
  | .setdlc _ => 0x08
  | .getsize _ => 0x09
  | .setsize _ => 0x0A
  | .getb _ _ => 0x0B
  | .setb _ _ => 0x0C
  | .geth _ _ _ => 0x0D
  | .seth _ _ _ => 0x0E
  | .getw _ _ _ => 0x0F
  | .setw _ _ _ => 0x10
  | .getrtr _ => 0x11
  | .setrtr _ _ => 0x12
  | .getbrs _ => 0x13
  | .setbrs _ _ => 0x14
  | .getesi _ => 0x15
  | .setesi _ _ => 0x16
  | .getfdf _ => 0x17
  | .getmrk _ => 0x18
  | .setmrk _ => 0x19
  | .getusr _ => 0x1A
  | .setusr _ => 0x1B
  | .eq => 0x1C
  | .encode _ => 0x1D
  | .decode _ => 0x1E

/-- The reserved fields of the instruction's word are 0 and its OPC field is its row's. -/
def Statement (i : Instr) : Prop :=
  rsv1Field (encode i) = 0 ∧ rsv0Field (encode i) = 0 ∧ opcField (encode i) = opcodeOf i

theorem clear (sl : SlotId) : Statement (.clear sl) :=
  ⟨rsv1Field_packWord .., rsv0Field_packWord .., opcField_packWord ..⟩

theorem init (sl : SlotId) (f : Format) : Statement (.init sl f) :=
  ⟨rsv1Field_packWord .., rsv0Field_packWord .., opcField_packWord ..⟩

theorem getfmt (sl : SlotId) : Statement (.getfmt sl) :=
  ⟨rsv1Field_packWord .., rsv0Field_packWord .., opcField_packWord ..⟩

theorem setfmt (sl : SlotId) (f : Format) : Statement (.setfmt sl f) :=
  ⟨rsv1Field_packWord .., rsv0Field_packWord .., opcField_packWord ..⟩

theorem getid (sl : SlotId) : Statement (.getid sl) :=
  ⟨rsv1Field_packWord .., rsv0Field_packWord .., opcField_packWord ..⟩

theorem setid (sl : SlotId) : Statement (.setid sl) :=
  ⟨rsv1Field_packWord .., rsv0Field_packWord .., opcField_packWord ..⟩

theorem getdlc (sl : SlotId) : Statement (.getdlc sl) :=
  ⟨rsv1Field_packWord .., rsv0Field_packWord .., opcField_packWord ..⟩

theorem setdlc (sl : SlotId) : Statement (.setdlc sl) :=
  ⟨rsv1Field_packWord .., rsv0Field_packWord .., opcField_packWord ..⟩

theorem getsize (sl : SlotId) : Statement (.getsize sl) :=
  ⟨rsv1Field_packWord .., rsv0Field_packWord .., opcField_packWord ..⟩

theorem setsize (sl : SlotId) : Statement (.setsize sl) :=
  ⟨rsv1Field_packWord .., rsv0Field_packWord .., opcField_packWord ..⟩

theorem getb (sl : SlotId) (pos : Nat) : Statement (.getb sl pos) :=
  ⟨rsv1Field_packWord .., rsv0Field_packWord .., opcField_packWord ..⟩

theorem setb (sl : SlotId) (pos : Nat) : Statement (.setb sl pos) :=
  ⟨rsv1Field_packWord .., rsv0Field_packWord .., opcField_packWord ..⟩

theorem geth (sl : SlotId) (pos : Nat) (e : Endian) : Statement (.geth sl pos e) :=
  ⟨rsv1Field_packWord .., rsv0Field_packWord .., opcField_packWord ..⟩

theorem seth (sl : SlotId) (pos : Nat) (e : Endian) : Statement (.seth sl pos e) :=
  ⟨rsv1Field_packWord .., rsv0Field_packWord .., opcField_packWord ..⟩

theorem getw (sl : SlotId) (pos : Nat) (e : Endian) : Statement (.getw sl pos e) :=
  ⟨rsv1Field_packWord .., rsv0Field_packWord .., opcField_packWord ..⟩

theorem setw (sl : SlotId) (pos : Nat) (e : Endian) : Statement (.setw sl pos e) :=
  ⟨rsv1Field_packWord .., rsv0Field_packWord .., opcField_packWord ..⟩

theorem getrtr (sl : SlotId) : Statement (.getrtr sl) :=
  ⟨rsv1Field_packWord .., rsv0Field_packWord .., opcField_packWord ..⟩

theorem setrtr (sl : SlotId) (v : Bool) : Statement (.setrtr sl v) :=
  ⟨rsv1Field_packWord .., rsv0Field_packWord .., opcField_packWord ..⟩

theorem getbrs (sl : SlotId) : Statement (.getbrs sl) :=
  ⟨rsv1Field_packWord .., rsv0Field_packWord .., opcField_packWord ..⟩

theorem setbrs (sl : SlotId) (v : Bool) : Statement (.setbrs sl v) :=
  ⟨rsv1Field_packWord .., rsv0Field_packWord .., opcField_packWord ..⟩

theorem getesi (sl : SlotId) : Statement (.getesi sl) :=
  ⟨rsv1Field_packWord .., rsv0Field_packWord .., opcField_packWord ..⟩

theorem setesi (sl : SlotId) (v : Bool) : Statement (.setesi sl v) :=
  ⟨rsv1Field_packWord .., rsv0Field_packWord .., opcField_packWord ..⟩

theorem getfdf (sl : SlotId) : Statement (.getfdf sl) :=
  ⟨rsv1Field_packWord .., rsv0Field_packWord .., opcField_packWord ..⟩

theorem getmrk (sl : SlotId) : Statement (.getmrk sl) :=
  ⟨rsv1Field_packWord .., rsv0Field_packWord .., opcField_packWord ..⟩

theorem setmrk (sl : SlotId) : Statement (.setmrk sl) :=
  ⟨rsv1Field_packWord .., rsv0Field_packWord .., opcField_packWord ..⟩

theorem getusr (sl : SlotId) : Statement (.getusr sl) :=
  ⟨rsv1Field_packWord .., rsv0Field_packWord .., opcField_packWord ..⟩

theorem setusr (sl : SlotId) : Statement (.setusr sl) :=
  ⟨rsv1Field_packWord .., rsv0Field_packWord .., opcField_packWord ..⟩

theorem eq : Statement (.eq) :=
  ⟨rsv1Field_packWord .., rsv0Field_packWord .., opcField_packWord ..⟩

theorem encode (sl : SlotId) : Statement (.encode sl) :=
  ⟨rsv1Field_packWord .., rsv0Field_packWord .., opcField_packWord ..⟩

theorem decode (sl : SlotId) : Statement (.decode sl) :=
  ⟨rsv1Field_packWord .., rsv0Field_packWord .., opcField_packWord ..⟩

end Sys2Proof.Laws.EncodeLegal
end

