-- ==== Sys2Proof/Tests/Slice0.lean ====
section
/-! SUPPORT. Tests of the model on small states, with expected results from spec/95_test_vectors.md
and the worked examples of the rules, and witnesses for the hypotheses of the obligations. -/

namespace Sys2Proof.Tests

open Sys2Proof.Machine

/-! ## Well-formedness and encoding -/

theorem test_wellFormed_refuses_a_wide_position :
    (Instr.getb .s0 256).wellFormed = false ∧ (Instr.setb .s0 256).wellFormed = false ∧
    (Instr.geth .s1 256 .big).wellFormed = false ∧ (Instr.seth .s1 1000 .big).wellFormed = false ∧
    (Instr.getw .s0 256 .little).wellFormed = false ∧
    (Instr.setw .s0 65536 .little).wellFormed = false := by decide

theorem test_wellFormed_accepts_the_last_position :
    (Instr.getb .s0 255).wellFormed = true ∧ (Instr.setw .s1 255 .big).wellFormed = true := by decide

/-- The words of the rules 40_construct.md R100 to 43_length.md R166. -/
theorem test_decode_frame_commands :
    decodeWord 0x00000001 = .ok (.clear .s0) ∧ decodeWord 0x000000C2 = .ok (.init .s0 .fdExt) ∧
    decodeWord 0x00000023 = .ok (.getfmt .s1) ∧ decodeWord 0x00000084 = .ok (.setfmt .s0 .fdStd) ∧
    decodeWord 0x00000005 = .ok (.getid .s0) ∧ decodeWord 0x00000026 = .ok (.setid .s1) ∧
    decodeWord 0x00000007 = .ok (.getdlc .s0) ∧ decodeWord 0x00000028 = .ok (.setdlc .s1) ∧
    decodeWord 0x00000009 = .ok (.getsize .s0) ∧ decodeWord 0x0000002A = .ok (.setsize .s1) := by
  decide

/-- The words of the rules 44_payload.md R180 to R185 and of the vectors VP. -/
theorem test_decode_payload_commands :
    decodeWord 0x0003000B = .ok (.getb .s0 3) ∧ decodeWord 0x00FF000B = .ok (.getb .s0 255) ∧
    decodeWord 0x003F000C = .ok (.setb .s0 63) ∧ decodeWord 0x0000010D = .ok (.geth .s0 0 .big) ∧
    decodeWord 0x0001000E = .ok (.seth .s0 1 .little) ∧
    decodeWord 0x003C000F = .ok (.getw .s0 60 .little) ∧
    decodeWord 0x003C0110 = .ok (.setw .s0 60 .big) := by decide

/-- The words of the rules 45_flags.md R200 to 47_wire.md R244. -/
theorem test_decode_flag_metadata_and_wire_commands :
    decodeWord 0x00000031 = .ok (.getrtr .s1) ∧ decodeWord 0x00000212 = .ok (.setrtr .s0 true) ∧
    decodeWord 0x00000013 = .ok (.getbrs .s0) ∧ decodeWord 0x00000214 = .ok (.setbrs .s0 true) ∧
    decodeWord 0x00000015 = .ok (.getesi .s0) ∧ decodeWord 0x00000216 = .ok (.setesi .s0 true) ∧
    decodeWord 0x00000017 = .ok (.getfdf .s0) ∧ decodeWord 0x00000018 = .ok (.getmrk .s0) ∧
    decodeWord 0x00000019 = .ok (.setmrk .s0) ∧ decodeWord 0x0000001A = .ok (.getusr .s0) ∧
    decodeWord 0x0000003B = .ok (.setusr .s1) ∧ decodeWord 0x0000001C = .ok .eq ∧
    decodeWord 0x0000003D = .ok (.encode .s1) ∧ decodeWord 0x0000003E = .ok (.decode .s1) := by decide

/-- VE1 to VE9. -/
theorem test_decode_illegal_words :
    decodeWord 0x00000000 = .error .reservedOpcode ∧ decodeWord 0x0000001F = .error .reservedOpcode ∧
    decodeWord 0x0000003F = .error .reservedOpcode ∧ decodeWord 0x00000405 = .error .reservedBits ∧
    decodeWord 0x00008005 = .error .reservedBits ∧ decodeWord 0x01000005 = .error .reservedBits ∧
    decodeWord 0x80000005 = .error .reservedBits ∧ decodeWord 0xFFFFFFFF = .error .reservedBits ∧
    decodeWord 0x0000041D = .error .reservedBits := by decide

/-- VE10 and VE11: fields a command does not read are ignored. -/
theorem test_decode_ignores_unread_fields :
    decodeWord 0x00FF03C5 = .ok (.getid .s0) ∧ decodeWord 0x00FF03D2 = .ok (.setrtr .s0 true) := by
  decide

theorem test_decodeTableWord :
    decodeTableWord 32 0x0003000B = some (.getb .s0 3) ∧ decodeTableWord 32 0x1F = none := by decide

/-! ## Single commands -/

/-- The image of the listed bytes, then zeros. -/
def img (bs : List Byte) : Image := imgOfFn fun k => bs.getD k 0

/-- The reset machine with slot 0 as `x` and a request's operands on the ports. -/
def machine (x : Slot) (arg0 arg1 : Word) (i : Image) : State :=
  { State.reset with slot0 := x, ports := { cmd := 0, arg0 := arg0, arg1 := arg1, imgIn := i } }

/-- A frame of a format, identifier and DLC with everything else 0. -/
def frame (f : Format) (id : Word) (dlc : BitVec 4) : Slot :=
  { Slot.reset with fmt := f, id := id, dlc := dlc }

/-- The slot of VP1 to VP20: CAN_STD, DLC 8, P = 10 11 … 17. -/
def slotVP : Slot :=
  { frame .canStd 0 8 with
    p := [(0, 0x10), (1, 0x11), (2, 0x12), (3, 0x13), (4, 0x14), (5, 0x15), (6, 0x16), (7, 0x17)] }

/-- Image A of VW5: the image of VW1. -/
def imgA : Image :=
  img [0x01, 0x05, 0x08, 0x00, 0x12, 0x34, 0x56, 0x78, 0x01, 0x02, 0x03, 0x04, 0x05, 0x06, 0x07, 0x08]

/-- The slot of VW1. -/
def slotVW1 : Slot :=
  { frame .canExt 0x12345678 8 with
    rtr := true
    p := [(0, 1), (1, 2), (2, 3), (3, 4), (4, 5), (5, 6), (6, 7), (7, 8)] }

/-- STATUS, RES and slot 0 after a command. -/
def seen (o : Host.Outcome State Fault Refusal) : Option (Status × Word × Slot) :=
  match o with
  | .next t => some (t.status, t.res, t.slot0)
  | .fault _ => none
  | .refused _ => none

/-- STATUS and RES after a command. -/
def answered (o : Host.Outcome State Fault Refusal) : Option (Status × Word) :=
  (seen o).map fun x => (x.1, x.2.1)

/-- Run one command on slot 0 as `x` with ARG0. -/
def run (i : Instr) (x : Slot) (arg0 : Word) : Option (Status × Word × Slot) :=
  seen (exec i (machine x arg0 0 zeroImage))

/-- VC2. -/
theorem test_clear : run (.clear .s0)
    { frame .fdExt 0x1ABCDEF0 15 with esi := true, p := [(63, 0xEE)], marker := 5, user := 6 } 0
    = some (.ok, 0, Slot.reset) := by decide

/-- VC4: ID masked, DLC clamped to 8. -/
theorem test_init_masks_and_clamps :
    seen (exec (.init .s0 .canStd) (machine Slot.reset 0xFFFF 9 zeroImage))
    = some (.ok, 0, frame .canStd 0x7FF 8) := by decide

/-- VC6: DLC 16 clamps to 15 in FD, ID 0x800 masks to 0. -/
theorem test_init_fd : seen (exec (.init .s0 .fdStd) (machine Slot.reset 0x800 16 zeroImage))
    = some (.ok, 0, frame .fdStd 0 15) := by decide

/-- VF2. -/
theorem test_getfmt : run (.getfmt .s0) (frame .fdExt 0 0) 0 = some (.ok, 3, frame .fdExt 0 0) := by
  decide

/-- VF3: FD to classic with DLC 15. -/
theorem test_setfmt_fd_to_classic :
    run (.setfmt .s0 .canStd) { frame .fdExt 0x1FFFFFFF 15 with brs := true, esi := true } 0
    = some (.ok, 0, frame .canStd 0x7FF 8) := by decide

/-- VF4: classic to FD keeps the identifier and clears RTR. -/
theorem test_setfmt_classic_to_fd :
    run (.setfmt .s0 .fdExt) { frame .canExt 0x12345678 8 with rtr := true } 0
    = some (.ok, 0, frame .fdExt 0x12345678 8) := by decide

/-- VI8. -/
theorem test_getid : run (.getid .s0) (frame .fdStd 0x123 0) 0
    = some (.ok, 0x123, frame .fdStd 0x123 0) := by decide

/-- VI2 and VI4. -/
theorem test_setid : run (.setid .s0) (frame .canStd 0 0) 0x800 = some (.ok, 0, frame .canStd 0 0) ∧
    run (.setid .s0) (frame .canExt 0 0) 0xFFFFFFFF
    = some (.ok, 0, frame .canExt 0x1FFFFFFF 0) := by decide

/-- VL37. -/
theorem test_getdlc : run (.getdlc .s0) (frame .canExt 0 7) 0 = some (.ok, 7, frame .canExt 0 7) := by
  decide

/-- VL5 and VL10. -/
theorem test_setdlc : run (.setdlc .s0) (frame .canStd 0 0) 0xFFFFFFFF
      = some (.ok, 0, frame .canStd 0 8) ∧
    run (.setdlc .s0) (frame .fdExt 0 0) 0x80000000 = some (.ok, 0, frame .fdExt 0 15) := by decide

/-- VP25: growth exposes the retained byte. -/
theorem test_setdlc_retains : run (.setdlc .s0) { frame .fdExt 0 8 with p := [(11, 0x42)] } 9
    = some (.ok, 0, { frame .fdExt 0 9 with p := [(11, 0x42)] }) := by decide

/-- VL34. -/
theorem test_getsize : run (.getsize .s0) (frame .fdExt 0 13) 0
    = some (.ok, 0x20, frame .fdExt 0 13) := by decide

/-- VL15, VL19 and VL28. -/
theorem test_setsize : run (.setsize .s0) (frame .canStd 0 0) 0x40 = some (.ok, 0, frame .canStd 0 8) ∧
    run (.setsize .s0) (frame .fdStd 0 0) 0x0D = some (.ok, 0, frame .fdStd 0 10) ∧
    run (.setsize .s0) (frame .fdStd 0 0) 0x30 = some (.ok, 0, frame .fdStd 0 14) := by decide

/-- VP2 and VP3. -/
theorem test_getb : run (.getb .s0 7) slotVP 0 = some (.ok, 0x17, slotVP) ∧
    run (.getb .s0 8) slotVP 0 = some (.ok, 0, slotVP) := by decide

/-- VP24: a hidden byte reads 0. -/
theorem test_getb_hidden : (run (.getb .s0 11) { frame .fdExt 0 8 with p := [(11, 0x42)] } 0).map
    (fun x => x.2.1) = some 0 := by decide

/-- VP6: only ARG0[7:0] is written. -/
theorem test_setb : (run (.setb .s0 3) slotVP 0x1FF).map (fun x => x.2.2.p) =
    some [(0, 0x10), (1, 0x11), (2, 0x12), (3, 0xFF), (4, 0x14), (5, 0x15), (6, 0x16), (7, 0x17)] := by
  decide

/-- VP5: out of range writes nothing. -/
theorem test_setb_out_of_range : run (.setb .s0 8) slotVP 0x99 = some (.ok, 0, slotVP) := by decide

/-- VP7, VP8 and VP10. -/
theorem test_geth : run (.geth .s0 0 .big) slotVP 0 = some (.ok, 0x1011, slotVP) ∧
    run (.geth .s0 0 .little) slotVP 0 = some (.ok, 0x1110, slotVP) ∧
    run (.geth .s0 7 .big) slotVP 0 = some (.ok, 0, slotVP) := by decide

/-- VP16 and VP18. -/
theorem test_seth : (run (.seth .s0 1 .little) slotVP 0xABCD).map (fun x => (x.2.2.p).take 4) =
      some [(0, 0x10), (1, 0xCD), (2, 0xAB), (3, 0x13)] ∧
    (run (.seth .s0 0 .big) slotVP 0x12345678).map (fun x => (x.2.2.p).take 3) =
      some [(0, 0x56), (1, 0x78), (2, 0x12)] := by decide

/-- VP17: a straddling write writes neither byte. -/
theorem test_seth_straddles : run (.seth .s0 7 .little) slotVP 0xABCD = some (.ok, 0, slotVP) := by
  decide

/-- VP12, VP13 and VP14. -/
theorem test_getw : run (.getw .s0 4 .little) slotVP 0 = some (.ok, 0x17161514, slotVP) ∧
    run (.getw .s0 5 .little) slotVP 0 = some (.ok, 0, slotVP) ∧
    run (.getw .s0 1 .big) slotVP 0 = some (.ok, 0x11121314, slotVP) := by decide

/-- VP19. -/
theorem test_setw : (run (.setw .s0 4 .little) slotVP 0xA1B2C3D4).map (fun x => (x.2.2.p).drop 4) =
    some [(4, 0xD4), (5, 0xC3), (6, 0xB2), (7, 0xA1)] := by decide

/-- VP21: the last word of a 64-byte frame. -/
theorem test_setw_last : (run (.setw .s0 60 .big) (frame .fdExt 0 15) 0x01020304).map (fun x => x.2.2.p)
    = some [(60, 1), (61, 2), (62, 3), (63, 4)] := by decide

/-- VG3 and VG6. -/
theorem test_getrtr : (run (.getrtr .s0) { frame .canStd 0 0 with rtr := true } 0).map (fun x => x.2.1)
      = some 1 ∧
    (run (.getrtr .s0) (frame .fdStd 0 0) 0).map (fun x => x.2.1) = some 0 := by decide

/-- VG2 and VG5. -/
theorem test_setrtr : run (.setrtr .s0 true) (frame .canStd 0 0) 0
      = some (.ok, 0, { frame .canStd 0 0 with rtr := true }) ∧
    run (.setrtr .s0 true) (frame .fdStd 0 0) 0 = some (.ok, 0, frame .fdStd 0 0) := by decide

/-- VG8 and VG14. -/
theorem test_getbrs : (run (.getbrs .s0) { frame .fdExt 0 0 with brs := true } 0).map (fun x => x.2.1)
      = some 1 ∧
    (run (.getbrs .s0) { frame .fdStd 0 0 with esi := true } 0).map (fun x => x.2.1) = some 0 := by
  decide

/-- VG7 and VG9. -/
theorem test_setbrs : run (.setbrs .s0 true) (frame .fdExt 0 0) 0
      = some (.ok, 0, { frame .fdExt 0 0 with brs := true }) ∧
    run (.setbrs .s0 true) (frame .canStd 0 0) 0 = some (.ok, 0, frame .canStd 0 0) := by decide

/-- VG12. -/
theorem test_getesi : (run (.getesi .s0) { frame .fdStd 0 0 with esi := true } 0).map (fun x => x.2.1)
    = some 1 := by decide

/-- VG11 and VG13. -/
theorem test_setesi : run (.setesi .s0 true) (frame .fdStd 0 0) 0
      = some (.ok, 0, { frame .fdStd 0 0 with esi := true }) ∧
    run (.setesi .s0 true) (frame .canExt 0 0) 0 = some (.ok, 0, frame .canExt 0 0) := by decide

/-- VG15 and VG16. -/
theorem test_getfdf : (run (.getfdf .s0) (frame .canStd 0 0) 0).map (fun x => x.2.1) = some 0 ∧
    (run (.getfdf .s0) (frame .fdStd 0 0) 0).map (fun x => x.2.1) = some 1 := by decide

/-- VM1 to VM4. -/
theorem test_metadata :
    run (.setmrk .s0) Slot.reset 0xCAFEF00D = some (.ok, 0, { Slot.reset with marker := 0xCAFEF00D }) ∧
    run (.getmrk .s0) { Slot.reset with marker := 0xCAFEF00D } 0
      = some (.ok, 0xCAFEF00D, { Slot.reset with marker := 0xCAFEF00D }) ∧
    run (.setusr .s0) Slot.reset 0xFFFFFFFF = some (.ok, 0, { Slot.reset with user := 0xFFFFFFFF }) ∧
    run (.getusr .s0) { Slot.reset with user := 0x12 } 0
      = some (.ok, 0x12, { Slot.reset with user := 0x12 }) := by decide

/-- VM6, VM8 and VM11: MARKER and RTR are ignored, the DLC is not. -/
theorem test_eq_fields : (run .eq { Slot.reset with marker := 1 } 0).map (fun x => x.2.1) = some 1 ∧
    (run .eq { Slot.reset with rtr := true } 0).map (fun x => x.2.1) = some 1 ∧
    (run .eq (frame .canStd 0 1) 0).map (fun x => x.2.1) = some 0 := by decide

/-- VM12 and VM13: a visible byte counts, a hidden one does not. -/
theorem test_eq_bytes :
    answered (exec .eq { machine { frame .fdExt 0 8 with p := [(11, 1)] } 0 0 zeroImage with
      slot1 := frame .fdExt 0 8 }) = some (.ok, 1) ∧
    answered (exec .eq { machine (frame .canStd 0 2) 0 0 zeroImage with
      slot1 := { frame .canStd 0 2 with p := [(1, 3)] } }) = some (.ok, 0) := by decide

/-- The output image after a command. -/
def imageSeen (o : Host.Outcome State Fault Refusal) : Option Image :=
  match o with
  | .next t => some t.imgOut
  | .fault _ => none
  | .refused _ => none

/-- VW1. -/
theorem test_encode : imageSeen (exec (.encode .s0) (machine slotVW1 0 0 zeroImage)) = some imgA := by
  decide

/-- VW4: a hidden byte is sent as 0. -/
theorem test_encode_hidden : imageSeen (exec (.encode .s0)
      (machine { frame .fdStd 0x7FF 8 with p := [(11, 0x5C)] } 0 0 zeroImage))
    = some (img [0x01, 0x02, 0x08, 0x00, 0x00, 0x00, 0x07, 0xFF]) := by decide

/-- VW6: MARKER and USER are cleared. -/
theorem test_decode : seen (exec (.decode .s0)
      (machine { Slot.reset with marker := 9, user := 9 } 0 0 imgA)) = some (.ok, 0, slotVW1) := by decide

/-- VW12, VW15 and VW18: V3, V5 and V6 fail. -/
theorem test_decode_malformed :
    validImage (img [0x01, 0x05, 0x09, 0x00, 0x12, 0x34, 0x56, 0x78]) = false ∧
    validImage (img [0x01, 0x09, 0x08, 0x00, 0x12, 0x34, 0x56, 0x78]) = false ∧
    validImage (img [0x01, 0x05, 0x08, 0x00, 0x12, 0x34, 0x56, 0x78, 1, 2, 3, 4, 5, 6, 7, 8, 1]) = false := by
  decide

/-- VW7: the version. -/
theorem test_decode_version :
    seen (exec (.decode .s0) (machine (frame .canStd 0x7FF 8) 0 0 (img [0x02])))
    = some (.protocolError, 0, frame .canStd 0x7FF 8) := by decide

/-- P4 step 8: a DECODE word with a reserved bit is ILLEGAL, whatever the image. -/
theorem test_step_illegal : answered (step { State.reset with
      host := [.request { cmd := 0x0000101E, arg0 := 0, arg1 := 0, imgIn := imgA }] })
    = some (.illegal, 0) := by decide

/-- Through the fetch: `GETFMT s0` after reset. -/
theorem test_step_from_reset : seen (step (State.reset.withFetchWord 32 0x00000003))
    = some (.ok, 0, Slot.reset) := by decide

/-! ## Witnesses: the hypotheses of the obligations can be met -/

/-- A machine whose host presents `r` next, then `rest`. -/
def hosted (r : Request) (rest : List HostEvent) : State :=
  { State.reset with host := .request r :: rest }

/-- A request with a command word and ARG0. -/
def req (w arg0 : Word) : Request := { cmd := w, arg0 := arg0, arg1 := 0, imgIn := zeroImage }

/-- AssertedResetClearsTheBlock, IdleHoldsStateAndResetReturnsNoResponse. -/
theorem witness_reset_event : ({ State.reset with host := [.reset] } : State).host = .reset :: [] ∧
    State.reset.host = [] := ⟨rfl, rfl⟩

/-- StepRunsTheDecodedCommand, PortsCarryNothingBetweenCommands, EveryStepAnswers,
ResponseRegistersAreOverwritten: a legal word that is not ENCODE. -/
theorem witness_request : (hosted (req 0x00000006 5) []).host = .request (req 0x00000006 5) :: [] ∧
    decodeWord (req 0x00000006 5).cmd = .ok (.setid .s0) ∧
    ∀ sl, decodeWord (req 0x00000006 5).cmd ≠ .ok (.encode sl) :=
  ⟨rfl, by decide, fun sl => by cases sl <;> decide⟩

/-- ResponseRegistersAreOverwritten, last clause: a step that answers a next state. -/
theorem witness_request_answers : ∃ t, step (hosted (req 0x00000006 5) []) = .next t :=
  ⟨_, step_request (i := .setid .s0) rfl (by decide)⟩

/-- PlacedWordRunsNext. -/
theorem witness_placed : decodeTableWord 32 0x00000006 = some (.setid .s0) := by decide

/-- IllegalWordIsAnsweredIllegal and IllegalWordsAreExactlyTheReservedOnes: each of the four clauses. -/
theorem witness_illegal_words : (0x00000000 : Word).extractLsb' 0 5 = 0x00 ∧
    (0x0000001F : Word).extractLsb' 0 5 = 0x1F ∧ (0x00000405 : Word).extractLsb' 10 6 ≠ 0 ∧
    (0x80000005 : Word).extractLsb' 24 8 ≠ 0 ∧
    decodeWord (req 0x00000000 0).cmd = .error .reservedOpcode := by decide

/-- ResIsZeroUnlessAReadSucceeds: a command that is no read, and an answer that is not OK. -/
theorem witness_res_zero :
    (∀ i, decodeWord (req 0x00000006 5).cmd = .ok i → isRead i = false) ∧
    ∃ t, step (hosted (req 0x00000000 0) []) = .next t ∧ t.status ≠ .ok := by
  refine ⟨fun i h => ?_, _, step_illegal (e := .reservedOpcode) rfl (by decide), by decide⟩
  rw [show decodeWord (req 0x00000006 5).cmd = .ok (.setid .s0) by decide] at h
  cases h
  rfl

/-- OpcodeMapRows: each opcode has a word, and a word has a reserved bit. -/
theorem witness_opcode_rows : (∀ o : BitVec 5, (o.setWidth 32 : Word) &&& 0xFF00FC1F = o.setWidth 32) ∧
    (0x00000405 : Word) &&& 0xFF00FC00 ≠ 0 := by decide

/-- DecodeOfEncode and EncodeOfDecode. -/
theorem witness_encoding : (Instr.setw .s1 255 .big).wellFormed = true ∧
    decodeWord 0x00FF0130 = .ok (.setw .s1 255 .big) := by decide

/-- IgnoredFieldsAndPortsHaveNoEffect: two words that differ in ignored fields only, a reserved bit, and
ports that differ in what SETID does not read. -/
theorem witness_ignored : decodeWord 0x00000005 = .ok (.getid .s0) ∧
    (0x00FF03C5 : Word) &&& 0xFF00FC00 = 0 ∧
    (0x00FF03C5 : Word) &&& fieldMask (.getid .s0) = 0x00000005 &&& fieldMask (.getid .s0) ∧
    (0x00000405 : Word) &&& 0xFF00FC00 ≠ 0 ∧
    readsArg1 (.setid .s0) = false ∧ readsImgIn (.setid .s0) = false := by decide

/-- SlotInvariantIsKept, PayloadStoresStayCanonical, ImgOutStaysWellFormed: reset meets all three
invariants, and so does a machine with a written frame and image. -/
theorem witness_invariants : State.reset.Inv ∧ State.reset.storesWf ∧ State.reset.imgOutWf ∧
    slotVW1.Inv ∧ slotVW1.p.wf = true ∧ validImage imgA = true := by
  exact ⟨by decide, by decide, .inl rfl, by decide, by decide, by decide⟩

/-- The invariants' other hypothesis: a step answers a next state. -/
theorem witness_step : ∃ t, step State.reset = .next t := ⟨_, step_idle rfl⟩

/-- ReadsHaveNoSideEffectAndCommandsAreIdempotent: a read, and a request presented twice. -/
theorem witness_twice : isRead (.getid .s0) = true ∧ (hosted (req 6 5) [.request (req 6 5)]).storesWf ∧
    (hosted (req 6 5) [.request (req 6 5)]).host = .request (req 6 5) :: .request (req 6 5) :: [] :=
  ⟨rfl, by decide, rfl⟩

/-- SlotsAreIndependent. -/
theorem witness_target : target (.setid .s1) = some .s1 := rfl

/-- EachFieldHasItsWriters: INIT from reset changes FMT, ID and DLC; SETB, SETRTR, SETBRS, SETESI,
SETMRK, SETUSR and ENCODE change theirs. -/
theorem witness_writers :
    (∃ t, exec (.init .s0 .fdExt) (machine Slot.reset 5 9 zeroImage) = .next t ∧
      t.slot0.fmt ≠ Slot.reset.fmt ∧ t.slot0.id ≠ Slot.reset.id ∧ t.slot0.dlc ≠ Slot.reset.dlc) ∧
    (∃ t, exec (.setb .s0 0) (machine slotVP 9 0 zeroImage) = .next t ∧ t.slot0.p ≠ slotVP.p) ∧
    (∃ t, exec (.setrtr .s0 true) State.reset = .next t ∧ t.slot0.rtr ≠ State.reset.slot0.rtr) ∧
    (∃ t, exec (.setbrs .s0 true) (machine (frame .fdStd 0 0) 0 0 zeroImage) = .next t ∧
      t.slot0.brs ≠ false) ∧
    (∃ t, exec (.setesi .s0 true) (machine (frame .fdStd 0 0) 0 0 zeroImage) = .next t ∧
      t.slot0.esi ≠ false) ∧
    (∃ t, exec (.setmrk .s0) (machine Slot.reset 7 0 zeroImage) = .next t ∧ t.slot0.marker ≠ 0) ∧
    (∃ t, exec (.setusr .s0) (machine Slot.reset 7 0 zeroImage) = .next t ∧ t.slot0.user ≠ 0) ∧
    ∃ t, exec (.encode .s0) State.reset = .next t ∧ t.imgOut ≠ State.reset.imgOut := by
  refine ⟨⟨_, rfl, by decide⟩, ⟨_, rfl, by decide⟩, ⟨_, rfl, by decide⟩, ⟨_, rfl, by decide⟩,
    ⟨_, rfl, by decide⟩, ⟨_, rfl, by decide⟩, ⟨_, rfl, by decide⟩, ⟨_, rfl, by decide⟩⟩

/-- InitOfZerosIsClear. -/
theorem witness_init_zero : State.reset.ports.arg0 = 0 ∧ State.reset.ports.arg1 = 0 := by decide

/-- SetFormatKeepsTheFrameConsistent: a change of family at the boundary DLC 9 and its neighbour 8, and
a change within a family; FrameFieldsAreRead: a classic format. -/
theorem witness_setfmt : isFD .fdStd ≠ isFD .canExt ∧ isFD .fdStd = isFD .fdExt ∧
    (isFD (frame .fdStd 0 9).fmt = true ∧ isFD .canStd = false ∧ (frame .fdStd 0 9).dlc.toNat > 8) ∧
    ¬(isFD (frame .fdStd 0 8).fmt = true ∧ isFD .canStd = false ∧ (frame .fdStd 0 8).dlc.toNat > 8) ∧
    (machine slotVP 0 0 zeroImage).Inv ∧ isFD slotVP.fmt = false := by decide

/-- SetSizeSnapsUpward: a DLC of the family that is large enough, at the last entry. -/
theorem witness_setsize : (15 : BitVec 4).toNat ≤ (if isFD .fdStd then 15 else 8) ∧
    min 64 (if isFD .fdStd then 64 else 8) ≤ dlcToLen .fdStd 15 := by decide

/-- DlcToLengthTable and LengthToDlcTable: both families, and each range of byte counts at its ends. -/
theorem witness_length_ranges : isFD .fdStd = true ∧ isFD .canStd = false ∧ (8 : BitVec 4).toNat ≤ 8 ∧
    (8 ≤ 8 ∧ 8 < 9 ∧ 12 ≤ 12) ∧ (12 < 13 ∧ 16 ≤ 16) ∧ (16 < 17 ∧ 20 ≤ 20) ∧ (20 < 21 ∧ 24 ≤ 24) ∧
    (24 < 25 ∧ 32 ≤ 32) ∧ (32 < 33 ∧ 48 ≤ 48) ∧ 48 < 49 := by decide

/-- The payload statements: the last position in range and the first out of range, for each width, and
the first position that no frame shows. -/
theorem witness_ranges : 255 < 256 ∧ 7 < slotVP.size ∧ slotVP.size ≤ 8 ∧ slotVP.size < 7 + 2 ∧
    6 + 2 ≤ slotVP.size ∧ slotVP.size < 5 + 4 ∧ 4 + 4 ≤ slotVP.size ∧ slotVP.size < 8 + 1 ∧
    (frame .fdExt 0 15).size ≤ 64 := by decide

/-- HiddenBytesAreRetainedAndUnobserved, first clause: the first and the last hidden position. -/
theorem witness_hidden_position : (frame .fdExt 0 8).size ≤ 8 ∧ 8 < 64 ∧
    (frame .fdExt 0 8).size ≤ 63 ∧ 63 < 64 := by decide

/-- HiddenBytesAreRetainedAndUnobserved: a store that differs in a hidden byte only. -/
theorem witness_hidden : ∀ a, a < (frame .fdExt 0 8).size →
    Memory.read [(11, 0x42)] a = (frame .fdExt 0 8).p.read a := by decide

/-- HiddenBytesAreRetainedAndUnobserved, last clause: position 11 is visible after SETDLC 9. -/
theorem witness_exposed : ∃ t,
    exec (.setdlc .s0) (machine { frame .fdExt 0 8 with p := [(11, 0x42)] } 9 0 zeroImage) = .next t ∧
      11 < (t.slot .s0).size := ⟨_, rfl, by decide⟩

/-- ImagesAndGoodSlotsCorrespond, WireImageRoundTrips: a slot with INV that is bare, and a valid image. -/
theorem witness_bare : slotVW1.Bare :=
  ⟨by decide, by decide, fun i h => by
    by_cases h64 : 64 ≤ i
    · exact Memory.read_outside (lo := 0) (by decide) h64
    · have h8 : 8 ≤ i := h
      interval_cases i <;> rfl, rfl, rfl⟩

/-- DecodeWritesTheSlotOrReportsTheError, OnlyDecodeReportsProtocolError: a valid image and one that is not. -/
theorem witness_images : validImage (machine Slot.reset 0 0 imgA).ports.imgIn = true ∧
    validImage (machine Slot.reset 0 0 (img [0x02])).ports.imgIn = false := by decide

/-- OnlyDecodeReportsProtocolError, FailedDecodeIsIsolated: a failed DECODE with a request after it. -/
theorem witness_failed_decode :
    (hosted { req 0x0000001E 0 with imgIn := img [0x02] } [.request (req 5 0)]).host =
      .request { req 0x0000001E 0 with imgIn := img [0x02] } :: .request (req 5 0) :: [] ∧
    decodeWord (req 0x0000001E 0).cmd = .ok (.decode .s0) ∧ validImage (img [0x02]) = false :=
  ⟨rfl, by decide, by decide⟩

end Sys2Proof.Tests
end

namespace Sys2Proof.Machine

/-! ## Reset values (10_state.md R39) -/

/-- Every field of a slot has its reset value. -/
theorem State.reset_slot (sl : SlotId) : State.reset.slot sl = Slot.reset := by cases sl <;> rfl

/-- Settles O1: each slot is `Slot.reset`, whose fields are the listed ones, and IMG_OUT is the zero
image. -/
theorem resetValues : Obligations.ResetValues := by
  refine ⟨fun sl => ?_, rfl, rfl, imgByte_zeroImage⟩
  rw [State.reset_slot]
  exact ⟨rfl, rfl, rfl, Memory.read_nil, rfl, rfl, rfl, rfl, rfl, rfl⟩

/-! ## STATUS, RES and IMG_OUT under a command (10_state.md R33) -/

/-- A GET-type answer overwrites what STATUS and RES held. -/
theorem answer_of_any_response (s : State) (st : Status) (x r : Word) :
    answer { s with status := st, res := x } r = answer s r := rfl

/-- A SET-type answer overwrites what STATUS and RES held. -/
theorem update_of_any_response (s : State) (st : Status) (x : Word) (sl : SlotId) (y : Slot) :
    update { s with status := st, res := x } sl y = update s sl y := by cases sl <;> rfl

/-- No command reads STATUS or RES, and each overwrites both: a GET or EQ by `answer`, a SET by
`update`, ENCODE and a failed DECODE by their own response. -/
theorem exec_of_any_response (i : Instr) (s : State) (st : Status) (x : Word) :
    exec i { s with status := st, res := x } = exec i s := by
  cases i with
  | getfmt sl | getid sl | getdlc sl | getsize sl | getrtr sl | getbrs sl | getesi sl | getfdf sl
  | getmrk sl | getusr sl | eq | getb sl pos | geth sl pos e | getw sl pos e =>
    exact answer_of_any_response ..
  | clear sl | init sl f | setfmt sl f | setid sl | setdlc sl | setsize sl | setb sl pos
  | seth sl pos e | setw sl pos e | setrtr sl v | setbrs sl v | setesi sl v | setmrk sl | setusr sl =>
    exact update_of_any_response ..
  | encode sl => rfl
  | decode sl => exact if_congr Iff.rfl (update_of_any_response ..) rfl

/-- A step on a request, legal or not, does not depend on what STATUS and RES held. -/
theorem step_of_any_response {s : State} {r : Request} {rest : List HostEvent}
    (h : s.host = .request r :: rest) (st : Status) (x : Word) :
    step { s with status := st, res := x } = step s := by
  cases hd : decodeWord r.cmd with
  | ok i =>
    rw [step_request h hd, step_request (s := { s with status := st, res := x }) h hd]
    exact exec_of_any_response i (s.present r rest) st x
  | error e =>
    rw [step_illegal h hd, step_illegal (s := { s with status := st, res := x }) h hd]
    rfl

/-- Only ENCODE writes IMG_OUT. -/
theorem exec_imgOut {i : Instr} {s t : State} (h : exec i s = .next t)
    (hi : ∀ sl, i ≠ .encode sl) : t.imgOut = s.imgOut := by
  rcases exec_forms i s with ⟨-, r, he⟩ | ⟨sl, x, -, -, -, he⟩ | ⟨sl, rfl, -⟩ | ⟨sl, -, -, he⟩
  case inr.inr.inl => exact absurd rfl (hi sl)
  all_goals
    cases he.symm.trans h
    simp

/-- A step on a request that is not ENCODE, legal or not, keeps IMG_OUT. -/
theorem step_request_imgOut {s t : State} {r : Request} {rest : List HostEvent}
    (h : s.host = .request r :: rest) (ht : step s = .next t)
    (hr : ∀ sl, decodeWord r.cmd ≠ .ok (.encode sl)) : t.imgOut = s.imgOut := by
  cases hd : decodeWord r.cmd with
  | ok i =>
    rw [step_request h hd] at ht
    exact (exec_imgOut ht fun sl hi => hr sl (hi ▸ hd)).trans (State.present_imgOut ..)
  | error e =>
    cases (step_illegal h hd).symm.trans ht
    rfl

/-- Settles O9: no command reads STATUS or RES, each overwrites both, and only ENCODE writes IMG_OUT. -/
theorem responseRegistersAreOverwritten : Obligations.ResponseRegistersAreOverwritten :=
  ⟨rfl, rfl, rfl, fun st => by cases st <;> decide,
    fun _ _ _ st x h => step_of_any_response h st x,
    fun _ _ _ _ h ht hr => step_request_imgOut h ht hr⟩

/-! ## Hidden bytes (10_state.md R31) -/

/-- Two slots that differ at most in hidden bytes. -/
structure Slot.SameVisible (a b : Slot) : Prop where
  /-- Every field but the store is the same. -/
  fields : b = { a with p := b.p }
  /-- Every visible byte is the same. -/
  bytes : ∀ i, i < a.size → b.p.read i = a.p.read i

theorem Slot.SameVisible.refl (a : Slot) : a.SameVisible a := ⟨rfl, fun _ _ => rfl⟩

/-- The size does not depend on the store. -/
theorem Slot.SameVisible.size_eq {a b : Slot} (h : a.SameVisible b) : b.size = a.size := by
  rw [h.fields]; rfl

/-- A payload read does not observe a hidden byte. -/
theorem Slot.SameVisible.memRead_eq {a b : Slot} (h : a.SameVisible b) (pos n : Nat) (e : Endian) :
    b.memRead pos n e = a.memRead pos n e :=
  Slot.memRead_congr h.size_eq (fun i hi => h.bytes i (h.size_eq ▸ hi)) pos n e

theorem Slot.visible_of_lt {s : Slot} {i : Nat} (h : i < s.size) : s.visible i = s.p.read i :=
  if_pos h

theorem Slot.visible_of_hidden {s : Slot} {i : Nat} (h : s.size ≤ i) : s.visible i = 0 :=
  if_neg (Nat.not_lt.2 h)

theorem Slot.SameVisible.visible_eq {a b : Slot} (h : a.SameVisible b) (i : Nat) :
    b.visible i = a.visible i := by
  by_cases hi : i < a.size
  · rw [Slot.visible_of_lt hi, Slot.visible_of_lt (h.size_eq ▸ hi), h.bytes i hi]
  · have hi := Nat.not_lt.1 hi
    rw [Slot.visible_of_hidden hi, Slot.visible_of_hidden (h.size_eq ▸ hi)]

/-- The wire image does not observe a hidden byte: its header reads no payload, and its payload bytes
are the visible ones. -/
theorem Slot.SameVisible.imageOf_eq {a b : Slot} (h : a.SameVisible b) : imageOf b = imageOf a := by
  apply imgByte_ext
  intro k hk
  rw [imgByte_imageOf b k hk, imgByte_imageOf a k hk]
  match k with
  | 0 | 1 | 2 | 3 | 4 | 5 | 6 | 7 => rw [h.fields]; rfl
  | i + 8 => exact h.visible_eq i

/-- EQ does not observe a hidden byte of either slot: with equal formats and DLCs the sizes are
equal, so it reads positions visible in both. -/
theorem Slot.SameVisible.sameFrame_eq {a a' b b' : Slot} (ha : a.SameVisible a')
    (hb : b.SameVisible b') : Slot.sameFrame a' b' = Slot.sameFrame a b := by
  obtain ⟨hfa, hia, hda⟩ : a'.fmt = a.fmt ∧ a'.id = a.id ∧ a'.dlc = a.dlc := by
    rw [ha.fields]; exact ⟨rfl, rfl, rfl⟩
  obtain ⟨hfb, hib, hdb⟩ : b'.fmt = b.fmt ∧ b'.id = b.id ∧ b'.dlc = b.dlc := by
    rw [hb.fields]; exact ⟨rfl, rfl, rfl⟩
  rw [Bool.eq_iff_iff, Slot.sameFrame_iff, Slot.sameFrame_iff, hfa, hfb, hia, hib, hda, hdb, ha.size_eq]
  refine and_congr_right fun hf => and_congr_right fun _ => and_congr_right fun hd => ?_
  have hsize : b.size = a.size := by unfold Slot.size; rw [hf, hd]
  exact forall₂_congr fun i hi => by rw [ha.bytes i hi, hb.bytes i (hsize ▸ hi)]

/-- Changing hidden bytes of one slot leaves every slot with the same visible content. -/
theorem State.setSlot_sameVisible {s : State} {sl : SlotId} {y : Slot}
    (h : (s.slot sl).SameVisible y) (x : SlotId) :
    (s.slot x).SameVisible ((s.setSlot sl y).slot x) := by
  by_cases hx : x = sl
  · subst hx
    rwa [State.setSlot_slot]
  · rw [State.setSlot_slot_ne s sl x y hx]
    exact .refl _

/-- At a hidden position the payload reads return 0 and ENCODE sends 0. -/
theorem hidden_position_reads_zero {sl : SlotId} {a : Nat} (e : Endian) {s : State}
    (h : (s.slot sl).size ≤ a) (h64 : a < 64) :
    (∃ t, exec (.getb sl a) s = .next t ∧ t.res = 0) ∧
    (∃ t, exec (.geth sl a e) s = .next t ∧ t.res = 0) ∧
    (∃ t, exec (.getw sl a e) s = .next t ∧ t.res = 0) ∧
    ∃ t, exec (.encode sl) s = .next t ∧ imgByte t.imgOut (8 + a) = 0 := by
  refine ⟨⟨_, rfl, Slot.memRead_out _ (by omega)⟩, ⟨_, rfl, Slot.memRead_out _ (by omega)⟩,
    ⟨_, rfl, Slot.memRead_out _ (by omega)⟩, _, rfl, ?_⟩
  rw [State.respondImage_imgOut, imgByte_imageOf_payload _ a h64, Slot.visible_of_hidden h]

/-- The commands that read the payload do not observe hidden bytes. -/
theorem exec_observes_visible_only {i : Instr} {s s' : State}
    (h : ∀ x, (s.slot x).SameVisible (s'.slot x)) (himg : s'.imgOut = s.imgOut)
    (hi : i = .eq ∨ (∃ x, i = .encode x) ∨ (∃ x pos, i = .getb x pos) ∨
      (∃ x pos e, i = .geth x pos e) ∨ ∃ x pos e, i = .getw x pos e) :
    ∃ t u, exec i s = .next t ∧ exec i s' = .next u ∧
      u.status = t.status ∧ u.res = t.res ∧ u.imgOut = t.imgOut := by
  rcases hi with rfl | ⟨x, rfl⟩ | ⟨x, pos, rfl⟩ | ⟨x, pos, e, rfl⟩ | ⟨x, pos, e, rfl⟩
  · exact ⟨_, _, rfl, rfl, rfl, congrArg bitWord ((h .s0).sameFrame_eq (h .s1)), himg⟩
  · exact ⟨_, _, rfl, rfl, rfl, rfl, (h x).imageOf_eq⟩
  · exact ⟨_, _, rfl, rfl, rfl, (h x).memRead_eq .., himg⟩
  · exact ⟨_, _, rfl, rfl, rfl, (h x).memRead_eq .., himg⟩
  · exact ⟨_, _, rfl, rfl, rfl, (h x).memRead_eq .., himg⟩

/-- SETDLC, SETSIZE and SETFMT update their slot and keep its store. -/
theorem exec_resize_keeps_store {i : Instr} {sl : SlotId} (s : State)
    (hi : i = .setdlc sl ∨ i = .setsize sl ∨ ∃ f, i = .setfmt sl f) :
    ∃ y : Slot, y.p = (s.slot sl).p ∧ exec i s = .next ((s.setSlot sl y).respond .ok 0) := by
  rcases hi with rfl | rfl | ⟨f, rfl⟩
  · exact ⟨_, Slot.setDlc_p .., rfl⟩
  · exact ⟨_, Slot.setDlc_p .., rfl⟩
  · exact ⟨_, Slot.changeFormat_p .., rfl⟩

/-- GETB of a visible position returns the byte the store holds there. -/
theorem Slot.memRead_one {s : Slot} {pos : Nat} (h : pos < s.size) (e : Endian) :
    s.memRead pos 1 e = (s.p.read pos).setWidth 32 := by
  rw [Slot.memRead_in e h, ← joinBytes_one]
  cases e <;> rfl

/-- Settles O47: the readers go through visible bytes only, and the three commands that change the size
write no byte, so what they expose is what the store held. -/
theorem hiddenBytesAreRetainedAndUnobserved : Obligations.HiddenBytesAreRetainedAndUnobserved := by
  refine ⟨fun sl a e s h h64 => hidden_position_reads_zero e h h64, fun i sl s q hq hi => ?_,
    fun i sl pos s hi => ?_⟩
  · exact exec_observes_visible_only (State.setSlot_sameVisible ⟨rfl, hq⟩)
      (State.setSlot_imgOut ..) hi
  · obtain ⟨y, hy, hexec⟩ := exec_resize_keeps_store s hi
    have hslot : (((s.setSlot sl y).respond .ok 0).slot sl).p = (s.slot sl).p := by
      rw [State.respond_slot, State.setSlot_slot, hy]
    exact ⟨_, _, hexec, hslot, rfl, fun hv => (Slot.memRead_one hv _).trans (by rw [hslot])⟩

end Sys2Proof.Machine

namespace Sys2Proof.Machine

/-! ## Accesses that are not in range (20_memory.md R51) -/

/-- A payload read that is not in range answers OK with 0 and changes nothing else. -/
theorem answer_memRead_out {s : State} {sl : SlotId} {pos n : Nat} (e : Endian)
    (h : (s.slot sl).size < pos + n) :
    ∃ t, answer s ((s.slot sl).memRead pos n e) = .next t ∧ ReadsOnly s t 0 := by
  rw [Slot.memRead_out e h]
  exact ⟨_, rfl, readsOnly_respond s 0⟩

/-- A payload write that is not in range puts the slot back as it was: what it leaves is what a read
of 0 leaves. -/
theorem update_memWrite_out {s : State} {sl : SlotId} {pos n : Nat} (v : Word) (e : Endian)
    (h : (s.slot sl).size < pos + n) :
    ∃ t, update s sl ((s.slot sl).memWrite pos n v e) = .next t ∧ ReadsOnly s t 0 := by
  rw [Slot.memWrite_out v e h, update, State.setSlot_self]
  exact ⟨_, rfl, readsOnly_respond s 0⟩

/-- Settles O44: the three reads are one `answer` of `MemRead` and the three writes one `update` with
`MemWrite`, at widths 1, 2 and 4. -/
theorem outOfRangeAccessIsSilent : Obligations.OutOfRangeAccessIsSilent := fun _ _ e _ =>
  ⟨fun h => ⟨answer_memRead_out .little h, update_memWrite_out _ .little h⟩,
    fun h => ⟨answer_memRead_out e h, update_memWrite_out _ e h⟩,
    fun h => ⟨answer_memRead_out e h, update_memWrite_out _ e h⟩⟩

end Sys2Proof.Machine

namespace Sys2Proof

/-! ## The pre-check and the opcode map (30_encoding.md R75, R78) -/

/-- A word with a reserved bit is refused whatever its opcode. -/
theorem decodeWord_of_reservedMask {w : Word} (h : w &&& 0xFF00FC00 ≠ 0) :
    decodeWord w = .error .reservedBits :=
  decodeWord_reserved (not_and_or.1 (mt (reservedMask_iff w).2 h))

/-- A word without a reserved bit is decoded by the opcode map. -/
theorem decodeWord_eq_decodeOpcode {w : Word} (h : w &&& 0xFF00FC00 = 0) :
    decodeWord w = decodeOpcode w := by
  obtain ⟨h1, h0⟩ := (reservedMask_iff w).1 h
  exact if_neg (not_or_intro (not_not_intro h1) (not_not_intro h0))

/-- A word that matches the row of an opcode has that opcode and is decoded by the map. -/
theorem decodeWord_of_rowMatch {w n : Word} (h : w &&& 0xFF00FC1F = n)
    (hn : (n.setWidth 5).setWidth 32 = n) :
    opcField w = n.setWidth 5 ∧ decodeWord w = decodeOpcode w := by
  obtain ⟨h1, h0, ho⟩ := (rowMatch_iff w (n.setWidth 5)).1 (h.trans hn.symm)
  exact ⟨ho, decodeWord_eq_decodeOpcode ((reservedMask_iff w).2 ⟨h1, h0⟩)⟩

/-! ## Fields that a command does not read (30_encoding.md R72) -/

/-- Two words that agree under a mask agree on every field that the mask covers. -/
theorem extractLsb'_eq_of_and_eq {w w' m : Word} {start len : Nat} (h : w' &&& m = w &&& m)
    (hm : m.extractLsb' start len = BitVec.allOnes len) :
    w'.extractLsb' start len = w.extractLsb' start len := by
  simpa [BitVec.extractLsb'_and, hm] using congrArg (BitVec.extractLsb' start len) h

/-- Every command reads its opcode. -/
theorem fieldMask_covers_opcode (i : Instr) :
    (fieldMask i).extractLsb' 0 5 = BitVec.allOnes 5 := by
  unfold fieldMask
  split <;> decide

/-- A word that agrees with `w` on the fields that the command of `w` reads selects the same row: the
mask covers the opcode, and in each row the fields that the row takes its operands from. -/
theorem decodeOpcode_congr {w w' : Word} {i : Instr} (hd : decodeOpcode w = .ok i)
    (h : w' &&& fieldMask i = w &&& fieldMask i) : decodeOpcode w' = .ok i := by
  have ho : opcField w' = opcField w := extractLsb'_eq_of_and_eq h (fieldMask_covers_opcode i)
  unfold decodeOpcode at hd ⊢
  rw [ho]
  split at hd
  all_goals cases hd
  all_goals
    simp only [fieldMask] at h
    simp (disch := decide) only [slotField, fmtField, endField, valField, posField,
      extractLsb'_eq_of_and_eq h]

/-- The fields that a command does not read do not change what a legal word decodes to. -/
theorem decodeWord_congr {w w' : Word} {i : Instr} (hd : decodeWord w = .ok i)
    (hr : w' &&& 0xFF00FC00 = 0) (h : w' &&& fieldMask i = w &&& fieldMask i) :
    decodeWord w' = .ok i := by
  obtain ⟨-, -, hd⟩ := decodeWord_ok hd
  rw [decodeWord_eq_decodeOpcode hr, decodeOpcode_congr hd h]

end Sys2Proof

namespace Sys2Proof.Machine

/-- Settles O14: a reserved bit is refused first; a word that matches a row has the row's opcode, at
which the map holds the row's answer, with the fields of the statement read bit by bit. -/
theorem opcodeMapRows : Obligations.OpcodeMapRows := by
  intro w
  dsimp only
  rw [← slotField_eq, ← fmtField_eq, ← endField_eq, ← valField_eq, ← posField_eq]
  refine ⟨decodeWord_of_reservedMask, ?_⟩
  and_intros
  all_goals
    intro h
    obtain ⟨ho, hd⟩ := decodeWord_of_rowMatch h (by decide)
    rw [hd, decodeOpcode, ho]
    rfl

/-! ## Ports that a command does not read (30_encoding.md R72) -/

/-- A SET-type answer reads no port and leaves the ports as they are. -/
theorem update_of_any_ports (s : State) (p : Request) (sl : SlotId) (x : Slot) :
    update { s with ports := p } sl x =
      .next { (s.setSlot sl x).respond .ok 0 with ports := p } := by
  cases sl <;> rfl

/-- A command that finds what it reads on the ports does the same whatever else they hold: most
commands read no port, the others ARG0, ARG0 and ARG1 (INIT), or IMG_IN (DECODE). -/
theorem exec_of_any_ports (i : Instr) (s : State) (p : Request)
    (h0 : readsArg0 i = true → p.arg0 = s.ports.arg0)
    (h1 : readsArg1 i = true → p.arg1 = s.ports.arg1)
    (himg : readsImgIn i = true → p.imgIn = s.ports.imgIn) :
    ∃ t, exec i s = .next t ∧ exec i { s with ports := p } = .next { t with ports := p } := by
  obtain ⟨cmd, arg0, arg1, imgIn⟩ := p
  cases i with
  | getfmt sl | getid sl | getdlc sl | getsize sl | getrtr sl | getbrs sl | getesi sl | getfdf sl
  | getmrk sl | getusr sl | eq | getb sl pos | geth sl pos e | getw sl pos e | encode sl =>
    exact ⟨_, rfl, rfl⟩
  | clear sl | setfmt sl f | setrtr sl v | setbrs sl v | setesi sl v =>
    exact ⟨_, rfl, update_of_any_ports ..⟩
  | setid sl | setdlc sl | setsize sl | setmrk sl | setusr sl | setb sl pos | seth sl pos e
  | setw sl pos e =>
    obtain rfl := h0 rfl
    exact ⟨_, rfl, update_of_any_ports ..⟩
  | init sl f =>
    obtain rfl := h0 rfl
    obtain rfl := h1 rfl
    exact ⟨_, rfl, update_of_any_ports ..⟩
  | decode sl =>
    obtain rfl := himg rfl
    cases hv : validImage s.ports.imgIn with
    | true => exact ⟨_, exec_decode_valid hv, (if_pos hv).trans (update_of_any_ports ..)⟩
    | false => exact ⟨_, exec_decode_invalid hv, exec_decode_invalid hv⟩

/-- Settles O19: the decoder looks at the opcode and the fields of `fieldMask` only, after the
reserved bits; a command looks at the ports it reads only. -/
theorem ignoredFieldsAndPortsHaveNoEffect : Obligations.IgnoredFieldsAndPortsHaveNoEffect :=
  ⟨fun _ _ _ => decodeWord_congr, fun _ => decodeWord_of_reservedMask, exec_of_any_ports⟩

end Sys2Proof.Machine

namespace Sys2Proof.Machine

/-! ## Construction (40_construct.md R100, R101) -/

/-- A SET-type command answers, and the slot it works on is then the given one. -/
theorem update_writesSlot (s : State) (sl : SlotId) (x : Slot) :
    ∃ t, update s sl x = .next t ∧ WritesSlot s t sl (t.slot sl) ∧ t.slot sl = x := by
  refine ⟨_, rfl, ?_⟩
  rw [State.respond_slot, State.setSlot_slot]
  exact ⟨writesSlot_respond s sl x, rfl⟩

/-- The constructed DLC as R101 writes it. -/
theorem Slot.constructed_dlc_toNat (f : Format) (id dlc : Word) :
    (Slot.constructed f id dlc).dlc.toNat = min dlc.toNat (if isFD f then 15 else 8) :=
  clampDlc_toNat f dlc

/-- DLC 0 is length 0. -/
theorem Slot.cleared_size : Slot.cleared.size = 0 := by decide

/-- Settles O27: INIT is one `update` with the constructed frame, whose fields are the listed ones. -/
theorem initConstructsTheFrame : Obligations.InitConstructsTheFrame := by
  refine ⟨fun sl f => ?_, fun sl f s => ?_⟩
  · cases sl <;> cases f <;> decide
  · obtain ⟨t, hexec, hwrites, hslot⟩ :=
      update_writesSlot s sl (Slot.constructed f s.ports.arg0 s.ports.arg1)
    refine ⟨t, hexec, hwrites, ?_⟩
    rw [hslot]
    exact ⟨rfl, congrArg (s.ports.arg0 &&& ·) (mask_eq f), Slot.constructed_dlc_toNat ..,
      Memory.read_nil, rfl, rfl, rfl, rfl, rfl⟩

/-- Settles O26: CLEAR is one `update` with the empty frame, whose fields are all 0. -/
theorem clearConstructsTheEmptyFrame : Obligations.ClearConstructsTheEmptyFrame := by
  refine ⟨fun sl => ?_, fun sl s => ?_⟩
  · cases sl <;> decide
  · obtain ⟨t, hexec, hwrites, hslot⟩ := update_writesSlot s sl Slot.cleared
    refine ⟨t, hexec, hwrites, ?_⟩
    rw [hslot]
    exact ⟨rfl, rfl, rfl, Memory.read_nil, rfl, rfl, rfl, rfl, rfl, Slot.cleared_size⟩

end Sys2Proof.Machine

namespace Sys2Proof.Machine

/-! ## Reading the frame fields (41_format.md R120, 42_identifier.md R140, 43_length.md R162, R165) -/

/-- A GET-type command answers, RES is then the value read, and nothing else changed. -/
theorem answer_readsOnly (s : State) (r : Word) :
    ∃ t, answer s r = .next t ∧ ReadsOnly s t r ∧ t.res = r :=
  ⟨_, rfl, readsOnly_respond s r, rfl⟩

/-- With INV the identifier does not exceed the mask of the format (10_state.md R22, R30). -/
theorem Slot.Inv.id_le_mask {s : Slot} (h : s.Inv) : s.id.toNat ≤ (mask s.fmt).toNat := by
  rw [← mask_of_inv h.1, BitVec.toNat_and]
  exact Nat.and_le_right

/-- A DLC of the family's range has its length in the family's row of the table (43_length.md R160). -/
theorem dlcToLen_mem_lengthRow {f : Format} {d : BitVec 4} (h : d.toNat ≤ dlcMax f) :
    dlcToLen f d ∈ lengthRow f := by
  have hlt : d.toNat < (lengthRow f).length := by
    have hlen : (lengthRow f).length = dlcMax f + 1 := by cases f <;> rfl
    omega
  unfold dlcToLen
  rw [List.getElem?_eq_getElem hlt]
  exact List.getElem_mem hlt

/-- The classic row is an initial part of the FD row. -/
theorem lengthRow_subset_fd (f : Format) : lengthRow f ⊆ lengthRow .fdStd := by
  cases f <;> decide

/-- RES holds a whole size: the largest is 64. -/
theorem Slot.size_word_toNat (s : Slot) : (BitVec.ofNat 32 s.size).toNat = s.size := by
  have := s.size_le
  rw [BitVec.toNat_ofNat]
  exact Nat.mod_eq_of_lt (by omega)

/-- With INV the size is an entry of the table, at most 8 for classic. -/
theorem Slot.Inv.size_mem_table {s : Slot} (h : s.Inv) :
    s.size ∈ lengthRow .fdStd ∧ (isFD s.fmt = false → s.size ≤ 8) := by
  obtain ⟨-, hd, -⟩ := h
  refine ⟨lengthRow_subset_fd s.fmt (dlcToLen_mem_lengthRow hd), fun hf => Slot.size_le_eight ?_⟩
  rwa [dlcMax_eq, hf] at hd

/-- Settles O29: each command is one `answer` with its field; the bounds are those that INV gives. -/
theorem frameFieldsAreRead : Obligations.FrameFieldsAreRead := by
  refine ⟨fun sl => by cases sl <;> decide, fun sl s => ?_⟩
  have hinv : s.Inv → (s.slot sl).Inv := fun h => (s.both_slots_iff Slot.Inv).1 h sl
  have hdlc : ((s.slot sl).dlc.setWidth 32).toNat = (s.slot sl).dlc.toNat :=
    BitVec.toNat_setWidth_of_le (by decide)
  refine ⟨?getfmt, ?getid, ?getdlc, ?getsize⟩
  case getfmt =>
    obtain ⟨t, hexec, hreads, hres⟩ := answer_readsOnly s ((s.slot sl).fmt.code.setWidth 32)
    refine ⟨t, hexec, hres ▸ hreads, hres.trans ?_⟩
    cases (s.slot sl).fmt <;> rfl
  case getid =>
    obtain ⟨t, hexec, hreads, hres⟩ := answer_readsOnly s (s.slot sl).readId
    exact ⟨t, hexec, hreads, fun h => hres ▸ (hinv h).id_le_mask⟩
  case getdlc =>
    obtain ⟨t, hexec, hreads, hres⟩ := answer_readsOnly s ((s.slot sl).dlc.setWidth 32)
    refine ⟨t, hexec, hres ▸ hreads, hres ▸ hdlc, fun h => ?_⟩
    obtain ⟨-, hle, -⟩ := hinv h
    rwa [hres, hdlc, ← dlcMax_eq]
  case getsize =>
    obtain ⟨t, hexec, hreads, hres⟩ := answer_readsOnly s (BitVec.ofNat 32 (s.slot sl).size)
    refine ⟨t, hexec, hres ▸ hreads, hres ▸ (s.slot sl).size_word_toNat, fun h => ?_⟩
    rw [hres, Slot.size_word_toNat]
    exact (hinv h).size_mem_table

/-! ## Changing the format (41_format.md R121) -/

theorem familyChange_iff (old new : Format) : familyChange old new = true ↔ isFD old ≠ isFD new :=
  bne_iff_ne

/-- Settles O30: SETFMT is one `update` with the changed slot, whose flags turn on the change of
family and whose DLC turns on the clamp; to its own format the changed slot is the slot itself. -/
theorem setFormatKeepsTheFrameConsistent : Obligations.SetFormatKeepsTheFrameConsistent := by
  refine ⟨fun sl f => ?words, fun sl f s => ?fields, fun sl s h => ?own⟩
  case words => cases sl <;> cases f <;> decide
  case fields =>
    obtain ⟨t, hexec, hwrites, hslot⟩ := update_writesSlot s sl ((s.slot sl).changeFormat f)
    refine ⟨t, hexec, hwrites, ?_⟩
    rw [hslot]
    refine ⟨rfl, rfl, congrArg ((s.slot sl).id &&& ·) (mask_eq f), fun hne => ?cleared,
      fun heq => ?kept, fun hclamp => if_pos hclamp, fun hkeep => if_neg hkeep, rfl, rfl, rfl⟩
    case cleared =>
      have hfam := (familyChange_iff ..).2 hne
      exact ⟨if_pos hfam, if_pos hfam, if_pos hfam⟩
    case kept =>
      have hfam := mt (familyChange_iff ..).1 (not_not_intro heq)
      exact ⟨if_neg hfam, if_neg hfam, if_neg hfam⟩
  case own =>
    refine ⟨_, rfl, ?_⟩
    rw [Slot.changeFormat_self ((s.both_slots_iff Slot.Inv).1 h sl), State.setSlot_self]
    rfl

end Sys2Proof.Machine

namespace Sys2Proof.Machine

/-! ## Writing the identifier (42_identifier.md R141) -/

/-- The slot after SETID, with the mask as R141 writes it. -/
theorem Slot.setId_eq (s : Slot) (x : Word) :
    s.setId x = { s with id := x &&& (if isExt s.fmt then 0x1FFFFFFF else 0x000007FF) } :=
  congrArg (fun m => { s with id := x &&& m }) (mask_eq s.fmt)

/-- Settles O31: SETID is one `update` with the masked identifier, and GETID is one `answer` with the
stored identifier. -/
theorem setIdMasksTheIdentifier : Obligations.SetIdMasksTheIdentifier := by
  refine ⟨fun sl => by cases sl <;> decide, fun sl s => ?_⟩
  obtain ⟨t, hexec, hwrites, hslot⟩ := update_writesSlot s sl ((s.slot sl).setId s.ports.arg0)
  rw [Slot.setId_eq] at hslot
  obtain ⟨u, hget, -, hres⟩ := answer_readsOnly t (t.slot sl).readId
  exact ⟨t, hexec, hslot ▸ hwrites, u, hget, hres.trans (congrArg Slot.id hslot)⟩

end Sys2Proof.Machine

namespace Sys2Proof.Machine

/-! ## The DLC table and its inverse (43_length.md R160, R161) -/

/-- Settles O35: a DLC up to 8 is its own length in both families, and the entries above are those of
the FD row. -/
theorem dlcToLengthTable : Obligations.DlcToLengthTable := by
  refine fun f d => ⟨dlcToLen_small f d, fun hf => ?_⟩
  rw [dlcToLen_fd f d hf]
  and_intros <;> (rintro rfl; rfl)

/-- The inverse of the table in the FD family: each branch ends at the next entry of the FD row. -/
theorem lenToDlc_fd (f : Format) (n : Nat) (h : isFD f = true) :
    lenToDlc f n = if n ≤ 8 then BitVec.ofNat 4 n else if n ≤ 12 then 9 else if n ≤ 16 then 10
      else if n ≤ 20 then 11 else if n ≤ 24 then 12 else if n ≤ 32 then 13
      else if n ≤ 48 then 14 else 15 :=
  if_neg (by simp [h])

theorem lenToDlc_fd_small (f : Format) (n : Nat) (h : isFD f = true) (hn : n ≤ 8) :
    (lenToDlc f n).toNat = n := by
  rw [lenToDlc_fd f n h, if_pos hn, BitVec.toNat_ofNat]
  exact Nat.mod_eq_of_lt (by omega)

/-- Settles O36: the classic inverse is the clamp at 8; in the FD family a range of byte counts makes
the conditions of the branches before it false and its own true. -/
theorem lengthToDlcTable : Obligations.LengthToDlcTable := by
  refine fun f n => ⟨lenToDlc_classic f n, fun hf => ⟨lenToDlc_fd_small f n hf, ?_⟩⟩
  rw [lenToDlc_fd f n hf]
  and_intros <;> intro hn <;> simp (disch := omega) only [if_pos, if_neg]

/-! ## Writing the DLC (43_length.md R163, R166) -/

/-- A SET-type command that stores a DLC answers, the slot then has that DLC, and nothing else
changed. -/
theorem update_setDlc_writesSlot (s : State) (sl : SlotId) (d : BitVec 4) :
    ∃ t, update s sl ((s.slot sl).setDlc d) = .next t ∧
      WritesSlot s t sl { s.slot sl with dlc := d } ∧ (t.slot sl).dlc = d := by
  obtain ⟨t, hexec, hwrites, hslot⟩ := update_writesSlot s sl ((s.slot sl).setDlc d)
  rw [Slot.setDlc_eq] at hslot
  exact ⟨t, hexec, hslot ▸ hwrites, congrArg Slot.dlc hslot⟩

/-- Settles O32: SETDLC is one `update` that stores the clamped DLC. -/
theorem setDlcClamps : Obligations.SetDlcClamps := by
  refine ⟨fun sl => by cases sl <;> decide, fun sl s => ?_⟩
  obtain ⟨t, hexec, hwrites, hdlc⟩ :=
    update_setDlc_writesSlot s sl (clampDlc (s.slot sl).fmt s.ports.arg0)
  exact ⟨t, hexec, hdlc ▸ hwrites, hdlc ▸ clampDlc_toNat ..⟩

/-- Settles O33: SETSIZE is one `update` that stores the DLC of the inverse table, which is in the
range of the family. -/
theorem setSizeStoresTheDlc : Obligations.SetSizeStoresTheDlc := by
  refine ⟨fun sl => by cases sl <;> decide, fun sl s => ?_⟩
  obtain ⟨t, hexec, hwrites, hdlc⟩ :=
    update_setDlc_writesSlot s sl (lenToDlc (s.slot sl).fmt s.ports.arg0.toNat)
  refine ⟨t, hexec, hwrites, ?_⟩
  rw [hdlc, ← dlcMax_eq]
  exact lenToDlc_le ..

end Sys2Proof.Machine

namespace Sys2Proof.Machine

/-! ## The words of the payload commands (44_payload.md, encodings) -/

theorem slotWord_eq (sl : SlotId) : slotWord sl = sl.bit.setWidth 32 <<< 5 := by cases sl <;> rfl

theorem endWord_eq (e : Endian) : endWord e = e.bit.setWidth 32 <<< 8 := by cases e <;> rfl

theorem posWord_eq {pos : Nat} (h : pos < 256) :
    posWord pos = (BitVec.ofNat 8 pos).setWidth 32 <<< 16 := by
  apply BitVec.eq_of_toNat_eq
  simp only [posWord, BitVec.toNat_ofNat, BitVec.toNat_shiftLeft, BitVec.toNat_setWidth,
    Nat.shiftLeft_eq]
  omega

/-- The fields of a payload command, each moved to its place, join to the packed word (30_encoding.md
R70). -/
theorem payloadWord_eq_packSPE {pos : Nat} (h : pos < 256) (opc : BitVec 5) (sl : SlotId)
    (e : Endian) :
    opc.setWidth 32 ||| posWord pos ||| endWord e ||| slotWord sl = packSPE opc sl pos e := by
  rw [posWord_eq h, endWord_eq, slotWord_eq, packSPE]
  apply BitVec.eq_of_getLsbD_eq
  intro i hi
  simp only [packWord_getLsbD, BitVec.getLsbD_or, BitVec.getLsbD_shiftLeft, BitVec.getLsbD_setWidth]
  interval_cases i <;> simp

/-- The word of a payload command decodes to what the opcode map's row makes of its operands. -/
theorem decodeWord_payloadWord {opc : BitVec 5} {row : SlotId → Nat → Endian → Instr}
    (hrow : ∀ w, opcField w = opc →
      decodeOpcode w = .ok (row (slotField w) (posField w) (endField w)))
    (sl : SlotId) {pos : Nat} (h : pos < 256) (e : Endian) :
    decodeWord (opc.setWidth 32 ||| posWord pos ||| endWord e ||| slotWord sl) =
      .ok (row sl pos e) := by
  rw [payloadWord_eq_packSPE h, packSPE, decodeWord_packWord, hrow _ (opcField_packWord ..),
    slotField_packWord, posField_packWord, endField_packWord, SlotId.ofBit_bit, Endian.ofBit_bit,
    BitVec.toNat_ofNat, Nat.mod_eq_of_lt h]

/-- GETB and SETB name no byte order: their words have END 0, and their rows do not read it. -/
theorem decodeWord_byteWord {opc : BitVec 5} {row : SlotId → Nat → Instr}
    (hrow : ∀ w, opcField w = opc → decodeOpcode w = .ok (row (slotField w) (posField w)))
    (sl : SlotId) {pos : Nat} (h : pos < 256) :
    decodeWord (opc.setWidth 32 ||| posWord pos ||| slotWord sl) = .ok (row sl pos) := by
  have := decodeWord_payloadWord (row := fun sl pos _ => row sl pos) hrow sl h .little
  rwa [show endWord .little = 0#32 from rfl, BitVec.or_zero] at this

/-! ## Payload reads (44_payload.md R180, R182, R184) -/

theorem Slot.memRead_two_big {s : Slot} {pos : Nat} (h : pos + 2 ≤ s.size) :
    s.memRead pos 2 .big = (s.p.read pos ++ s.p.read (pos + 1) : BitVec 16).setWidth 32 :=
  (Slot.memRead_in .big h).trans (joinBytes_two ..)

theorem Slot.memRead_two_little {s : Slot} {pos : Nat} (h : pos + 2 ≤ s.size) :
    s.memRead pos 2 .little = (s.p.read (pos + 1) ++ s.p.read pos : BitVec 16).setWidth 32 :=
  (Slot.memRead_in .little h).trans (joinBytes_two ..)

theorem Slot.memRead_four_big {s : Slot} {pos : Nat} (h : pos + 4 ≤ s.size) :
    s.memRead pos 4 .big = (s.p.read pos ++ s.p.read (pos + 1) ++ s.p.read (pos + 2) ++
      s.p.read (pos + 3) : BitVec 32) :=
  (Slot.memRead_in .big h).trans (joinBytes_four ..)

theorem Slot.memRead_four_little {s : Slot} {pos : Nat} (h : pos + 4 ≤ s.size) :
    s.memRead pos 4 .little = (s.p.read (pos + 3) ++ s.p.read (pos + 2) ++ s.p.read (pos + 1) ++
      s.p.read pos : BitVec 32) :=
  (Slot.memRead_in .little h).trans (joinBytes_four ..)

theorem setWidth_half_le (x : BitVec 16) : (x.setWidth 32).toNat ≤ 0xFFFF := by
  rw [BitVec.toNat_setWidth_of_le (by decide)]
  exact Nat.le_of_lt_succ x.isLt

/-- A two-byte read does not exceed 16 bits, in range or not. -/
theorem Slot.memRead_two_le (s : Slot) (pos : Nat) (e : Endian) :
    (s.memRead pos 2 e).toNat ≤ 0xFFFF := by
  by_cases h : pos + 2 ≤ s.size
  · cases e with
    | big => exact Slot.memRead_two_big h ▸ setWidth_half_le _
    | little => exact Slot.memRead_two_little h ▸ setWidth_half_le _
  · rw [Slot.memRead_out e (Nat.lt_of_not_le h)]
    decide

/-- Settles O38: GETB is one `answer` with a one-byte `MemRead`, and no position from 64 up is in
range. -/
theorem getByteReadsVisibleBytes : Obligations.GetByteReadsVisibleBytes := by
  refine ⟨fun sl pos => decodeWord_byteWord (opc := 0x0B) (fun w ho => ?row) sl,
    fun sl pos s => ?reads⟩
  case row => rw [decodeOpcode, ho]; rfl
  case reads =>
    obtain ⟨t, hexec, hreads, hres⟩ := answer_readsOnly s ((s.slot sl).memRead pos 1 .little)
    have hsize := (s.slot sl).size_le
    exact ⟨t, hexec, hres ▸ hreads, fun h => hres.trans (Slot.memRead_one h _),
      fun h => hres.trans (Slot.memRead_out _ (by omega)),
      fun h => hres.trans (Slot.memRead_out _ (by omega))⟩

/-- Settles O39: GETH is one `answer` with a two-byte `MemRead`. -/
theorem getHalfReadsTwoBytes : Obligations.GetHalfReadsTwoBytes := by
  refine ⟨fun sl pos e h => decodeWord_payloadWord (opc := 0x0D) (fun w ho => ?row) sl h e,
    fun sl pos e s => ?reads⟩
  case row => rw [decodeOpcode, ho]; rfl
  case reads =>
    obtain ⟨t, hexec, hreads, hres⟩ := answer_readsOnly s ((s.slot sl).memRead pos 2 e)
    refine ⟨t, hexec, hres ▸ hreads, hres ▸ Slot.memRead_two_le .., ?_⟩
    rw [hres]
    refine ⟨Slot.memRead_out e, fun h he => ?big, fun h he => ?little⟩
    case big => exact he ▸ Slot.memRead_two_big h
    case little => exact he ▸ Slot.memRead_two_little h

/-- Settles O40: GETW is one `answer` with a four-byte `MemRead`. -/
theorem getWordReadsFourBytes : Obligations.GetWordReadsFourBytes := by
  refine ⟨fun sl pos e h => decodeWord_payloadWord (opc := 0x0F) (fun w ho => ?row) sl h e,
    fun sl pos e s => ?reads⟩
  case row => rw [decodeOpcode, ho]; rfl
  case reads =>
    obtain ⟨t, hexec, hreads, hres⟩ := answer_readsOnly s ((s.slot sl).memRead pos 4 e)
    refine ⟨t, hexec, hres ▸ hreads, ?_⟩
    rw [hres]
    refine ⟨Slot.memRead_out e, fun h he => ?big, fun h he => ?little⟩
    case big => exact he ▸ Slot.memRead_four_big h
    case little => exact he ▸ Slot.memRead_four_little h

end Sys2Proof.Machine

namespace Sys2Proof.Machine

/-! ## Payload writes (44_payload.md R181, R183, R185) -/

/-- Byte `k` of the low `n` bytes given most significant first. -/
theorem splitBytes_getElem (v : Word) {n k : Nat} (h : k < (splitBytes v n).length) :
    (splitBytes v n)[k] = byteOf v (n - 1 - k) := by
  induction n generalizing k with
  | zero => exact absurd h (Nat.not_lt_zero k)
  | succ n ih =>
    cases k with
    | zero => rfl
    | succ k =>
      simp only [splitBytes, List.getElem_cons_succ, ih]
      congr 1
      omega

/-- Byte `k` of a value in the order of the access: counted from the top for big-endian, from the
bottom for little-endian (20_memory.md R54). -/
theorem orderBytes_splitBytes_getD (v : Word) (e : Endian) {n k : Nat} (h : k < n) :
    (orderBytes e (splitBytes v n)).getD k 0 = byteOf v (if e = .big then n - 1 - k else k) := by
  have hlen : k < (orderBytes e (splitBytes v n)).length := by
    rwa [orderBytes_length, splitBytes_length]
  rw [List.getD_eq_getElem _ _ hlen]
  cases e with
  | big => exact splitBytes_getElem ..
  | little =>
    simp only [orderBytes, List.getElem_reverse, splitBytes_getElem, splitBytes_length]
    congr 1
    simp only [reduceCtorEq, if_false]
    omega

/-- What every position reads after a write, by the bytes of the value. -/
theorem Slot.memWrite_read_byteOf (s : Slot) (pos n : Nat) (v : Word) (e : Endian) (a : Nat) :
    (s.memWrite pos n v e).p.read a =
      if pos + n ≤ s.size ∧ pos ≤ a ∧ a < pos + n then
        byteOf v (if e = .big then n - 1 - (a - pos) else a - pos)
      else s.p.read a := by
  rw [Slot.memWrite_read]
  split
  · exact orderBytes_splitBytes_getD v e (by omega)
  · rfl

/-- A payload write changes no field but the store. -/
theorem Slot.memWrite_eq_with_p (s : Slot) (pos n : Nat) (v : Word) (e : Endian) :
    s.memWrite pos n v e = { s with p := (s.memWrite pos n v e).p } := by
  apply Slot.ext <;> simp

/-- A payload write answers OK and leaves at each position what `MemWrite` leaves there. -/
theorem update_memWrite_writesPayload {s : State} {sl : SlotId} {pos n : Nat} {v : Word} {e : Endian}
    {f : Nat → Byte} (hf : ∀ a, ((s.slot sl).memWrite pos n v e).p.read a = f a) :
    ∃ t, update s sl ((s.slot sl).memWrite pos n v e) = .next t ∧ WritesPayload s t sl f := by
  obtain ⟨t, hexec, ⟨hresp, -, hother, himg⟩, hslot⟩ :=
    update_writesSlot s sl ((s.slot sl).memWrite pos n v e)
  refine ⟨t, hexec, hresp, ?_, fun a => ?_, hother, himg⟩
  · rw [hslot]
    exact Slot.memWrite_eq_with_p ..
  · rw [hslot, hf]

/-- `ARG0[7:0]` has the low byte of ARG0. -/
theorem State.byteOf_arg0Byte (s : State) : byteOf s.arg0Byte 0 = s.ports.arg0.extractLsb' 0 8 :=
  extractLsb'_eq_of_and_eq (m := 0xFF) (by rw [State.arg0Byte, BitVec.and_assoc, BitVec.and_self])
    (by decide)

/-- `ARG0[15:0]` has the low two bytes of ARG0. -/
theorem State.byteOf_arg0Half (s : State) {k : Nat} (hk : k < 2) :
    byteOf s.arg0Half k = s.ports.arg0.extractLsb' (8 * k) 8 :=
  extractLsb'_eq_of_and_eq (m := 0xFFFF) (by rw [State.arg0Half, BitVec.and_assoc, BitVec.and_self])
    (by interval_cases k <;> decide)

/-- Settles O41: SETB is one `update` with a one-byte `MemWrite` of the low byte of ARG0. -/
theorem setByteWritesOneVisibleByte : Obligations.SetByteWritesOneVisibleByte := by
  refine ⟨fun sl pos => decodeWord_byteWord (opc := 0x0C) (fun w ho => ?row) sl,
    fun sl pos s => update_memWrite_writesPayload fun a => ?reads⟩
  case row => rw [decodeOpcode, ho]; rfl
  case reads =>
    rw [Slot.memWrite_read_byteOf]
    refine ite_congr (propext (by omega)) (fun h => ?written) fun _ => rfl
    case written =>
      obtain ⟨-, rfl⟩ := h
      rw [if_neg (by decide), Nat.sub_self, State.byteOf_arg0Byte]

/-- Settles O42: SETH is one `update` with a two-byte `MemWrite` of the low half of ARG0. -/
theorem setHalfWritesTwoBytes : Obligations.SetHalfWritesTwoBytes := by
  refine ⟨fun sl pos e h => decodeWord_payloadWord (opc := 0x0E) (fun w ho => ?row) sl h e,
    fun sl pos e s => update_memWrite_writesPayload fun a => ?reads⟩
  case row => rw [decodeOpcode, ho]; rfl
  case reads =>
    rw [Slot.memWrite_read_byteOf]
    by_cases hfst : pos + 2 ≤ (s.slot sl).size ∧ a = pos
    · rw [if_pos hfst, if_pos (by omega), State.byteOf_arg0Half s (by split <;> omega), hfst.2,
        Nat.sub_self]
      cases e <;> rfl
    by_cases hsnd : pos + 2 ≤ (s.slot sl).size ∧ a = pos + 1
    · rw [if_neg hfst, if_pos hsnd, if_pos (by omega), State.byteOf_arg0Half s (by split <;> omega),
        hsnd.2, Nat.add_sub_cancel_left]
      cases e <;> rfl
    · rw [if_neg hfst, if_neg hsnd, if_neg (by omega)]

/-- Settles O43: SETW is one `update` with a four-byte `MemWrite` of ARG0; the offset from `pos` counts
the bytes from the top for big-endian and from the bottom for little-endian. -/
theorem setWordWritesFourBytes : Obligations.SetWordWritesFourBytes := by
  refine ⟨fun sl pos e h => decodeWord_payloadWord (opc := 0x10) (fun w ho => ?row) sl h e,
    fun sl pos e s => update_memWrite_writesPayload fun a => ?reads⟩
  case row => rw [decodeOpcode, ho]; rfl
  case reads =>
    rw [Slot.memWrite_read_byteOf]
    refine ite_congr rfl (fun h => ?written) fun _ => rfl
    case written =>
      rw [show pos + 3 - a = 4 - 1 - (a - pos) by omega]
      exact apply_ite (byteOf s.ports.arg0) ..

end Sys2Proof.Machine

namespace Sys2Proof.Machine

/-! ## Reading the flags (45_flags.md R200, R202, R204, R206) -/

theorem Slot.readRtr_iff (s : Slot) : s.readRtr = true ↔ isFD s.fmt = false ∧ s.rtr = true := by
  unfold Slot.readRtr
  cases isFD s.fmt <;> simp

theorem Slot.readBrs_iff (s : Slot) : s.readBrs = true ↔ isFD s.fmt = true ∧ s.brs = true := by
  unfold Slot.readBrs
  cases isFD s.fmt <;> simp

theorem Slot.readEsi_iff (s : Slot) : s.readEsi = true ↔ isFD s.fmt = true ∧ s.esi = true := by
  unfold Slot.readEsi
  cases isFD s.fmt <;> simp

theorem Slot.fdf_iff (s : Slot) : s.fdf = true ↔ s.fmt.code.getLsbD 1 = true := by
  rw [← isFD_eq_code_bit]
  rfl

/-- A GET-type command of a flag answers 1 under the condition for the flag to read as set, else 0,
and changes nothing else. -/
theorem answer_bitWord_readsOnly (s : State) {b : Bool} {p : Prop} [Decidable p] (h : b = true ↔ p) :
    ∃ t, answer s (bitWord b) = .next t ∧ ReadsOnly s t (if p then 1 else 0) := by
  obtain ⟨t, hexec, hreads, -⟩ := answer_readsOnly s (bitWord b)
  exact ⟨t, hexec, if_congr h rfl rfl ▸ hreads⟩

/-- Settles O48: each command is one `answer` with one bit, set exactly under the stated condition. -/
theorem flagsAreRead : Obligations.FlagsAreRead :=
  ⟨fun sl => by cases sl <;> decide, fun sl s =>
    ⟨answer_bitWord_readsOnly s (s.slot sl).readRtr_iff,
      answer_bitWord_readsOnly s (s.slot sl).readBrs_iff,
      answer_bitWord_readsOnly s (s.slot sl).readEsi_iff,
      answer_bitWord_readsOnly s (s.slot sl).fdf_iff⟩⟩

/-! ## Writing the flags (45_flags.md R201, R203, R205) -/

/-- A SET-type command writes its slot, in any form in which the new slot is given. -/
theorem update_writesSlot_of_eq {s : State} {sl : SlotId} {x y : Slot} (h : x = y) :
    ∃ t, update s sl x = .next t ∧ WritesSlot s t sl y :=
  ⟨_, rfl, h ▸ writesSlot_respond s sl x⟩

/-- Settles O49: each command is one `update` with the slot in which the flag is set in its own
family and kept in the other. -/
theorem flagsAreWrittenOnlyWhereSupported : Obligations.FlagsAreWrittenOnlyWhereSupported :=
  ⟨fun sl v => by cases sl <;> cases v <;> decide, fun sl v s =>
    ⟨update_writesSlot_of_eq ((s.slot sl).writeRtr_eq v),
      update_writesSlot_of_eq ((s.slot sl).writeBrs_eq v),
      update_writesSlot_of_eq ((s.slot sl).writeEsi_eq v)⟩⟩

/-! ## RTR and the payload (45_flags.md R207) -/

/-- The size is that of the format and the DLC, which SETRTR keeps. -/
@[simp] theorem Slot.writeRtr_size (s : Slot) (v : Bool) : (s.writeRtr v).size = s.size := by
  simp [Slot.size]

/-- The state with another value of RTR in one slot. -/
def State.withRtr (s : State) (sl : SlotId) (v : Bool) : State :=
  s.setSlot sl { s.slot sl with rtr := v }

@[simp] theorem State.withRtr_slot (s : State) (sl : SlotId) (v : Bool) :
    (s.withRtr sl v).slot sl = { s.slot sl with rtr := v } := State.setSlot_slot ..

@[simp] theorem State.withRtr_ports (s : State) (sl : SlotId) (v : Bool) :
    (s.withRtr sl v).ports = s.ports := State.setSlot_ports ..

@[simp] theorem State.withRtr_arg0 (s : State) (sl : SlotId) (v : Bool) :
    (s.withRtr sl v).arg0 = s.arg0 := congrArg Request.arg0 (s.withRtr_ports sl v)

@[simp] theorem State.withRtr_arg0Byte (s : State) (sl : SlotId) (v : Bool) :
    (s.withRtr sl v).arg0Byte = s.arg0Byte := congrArg (· &&& 0x000000FF) (s.withRtr_arg0 sl v)

@[simp] theorem State.withRtr_arg0Half (s : State) (sl : SlotId) (v : Bool) :
    (s.withRtr sl v).arg0Half = s.arg0Half := congrArg (· &&& 0x0000FFFF) (s.withRtr_arg0 sl v)

@[simp] theorem State.withRtr_setSlot (s : State) (sl : SlotId) (v : Bool) (x : Slot) :
    (s.withRtr sl v).setSlot sl x = s.setSlot sl x := State.setSlot_setSlot ..

theorem State.respond_withRtr (s : State) (st : Status) (r : Word) (sl : SlotId) (v : Bool) :
    (s.respond st r).withRtr sl v = (s.withRtr sl v).respond st r := by
  rw [State.withRtr, State.respond_slot, State.setSlot_respond, ← State.withRtr]

theorem State.setSlot_withRtr (s : State) (sl : SlotId) (x : Slot) (v : Bool) :
    (s.setSlot sl x).withRtr sl v = s.setSlot sl { x with rtr := v } := by
  rw [State.withRtr, State.setSlot_slot, State.setSlot_setSlot]

/-- A payload read observes the size and the store only. -/
theorem Slot.memRead_with_rtr (s : Slot) (v : Bool) (pos n : Nat) (e : Endian) :
    Slot.memRead { s with rtr := v } pos n e = s.memRead pos n e :=
  Slot.memRead_congr rfl (fun _ _ => rfl) pos n e

/-- A payload write observes the size and the store only, and keeps the flag. -/
theorem Slot.memWrite_with_rtr (s : Slot) (v : Bool) (pos n : Nat) (w : Word) (e : Endian) :
    Slot.memWrite { s with rtr := v } pos n w e = { s.memWrite pos n w e with rtr := v } := by
  have hrange : Slot.inRange { s with rtr := v } pos n = s.inRange pos n := rfl
  unfold Slot.memWrite
  rw [hrange]
  split
  · rfl
  · rfl

/-- A payload read does the same whatever RTR holds. -/
theorem answer_memRead_withRtr (s : State) (sl : SlotId) (v : Bool) (pos n : Nat) (e : Endian) :
    ∃ t, answer s ((s.slot sl).memRead pos n e) = .next t ∧
      answer (s.withRtr sl v) (((s.withRtr sl v).slot sl).memRead pos n e) =
        .next (t.withRtr sl v) := by
  refine ⟨_, rfl, ?_⟩
  rw [State.withRtr_slot, Slot.memRead_with_rtr, State.respond_withRtr, answer]

/-- A payload write of the same value does the same whatever RTR holds. -/
theorem update_memWrite_withRtr (s : State) (sl : SlotId) (v : Bool) (pos n : Nat) (e : Endian)
    {w w' : Word} (hw : w' = w) :
    ∃ t, update s sl ((s.slot sl).memWrite pos n w e) = .next t ∧
      update (s.withRtr sl v) sl (((s.withRtr sl v).slot sl).memWrite pos n w' e) =
        .next (t.withRtr sl v) := by
  refine ⟨_, rfl, ?_⟩
  rw [hw, State.withRtr_slot, Slot.memWrite_with_rtr, State.respond_withRtr, State.setSlot_withRtr,
    update, State.withRtr_setSlot]

/-- Settles O50: SETRTR keeps what the size and the payload are read from; a payload command is one
`MemRead` or `MemWrite`, which do not observe RTR, and its value stands on the ports. -/
theorem rtrIsIndependentOfThePayload : Obligations.RtrIsIndependentOfThePayload := by
  refine ⟨fun sl v s => ?setrtr, fun i sl v s hi => ?payload⟩
  case setrtr =>
    obtain ⟨t, hexec, -, hslot⟩ := update_writesSlot s sl ((s.slot sl).writeRtr v)
    refine ⟨t, hexec, ?_⟩
    rw [hslot]
    exact ⟨Slot.writeRtr_dlc .., Slot.writeRtr_size .., Slot.writeRtr_p ..⟩
  case payload =>
    rcases hi with ⟨pos, rfl | rfl⟩ | ⟨pos, e, rfl | rfl | rfl | rfl⟩
    · exact answer_memRead_withRtr s sl v pos 1 .little
    · exact update_memWrite_withRtr s sl v pos 1 .little (s.withRtr_arg0Byte sl v)
    · exact answer_memRead_withRtr s sl v pos 2 e
    · exact update_memWrite_withRtr s sl v pos 2 e (s.withRtr_arg0Half sl v)
    · exact answer_memRead_withRtr s sl v pos 4 e
    · exact update_memWrite_withRtr s sl v pos 4 e (s.withRtr_arg0 sl v)

end Sys2Proof.Machine

namespace Sys2Proof.Machine

/-! ## Equality (46_metadata_equality.md R224) -/

theorem bitWord_eq_zero_or_one (b : Bool) : bitWord b = 0 ∨ bitWord b = 1 := by
  cases b
  · exact .inl rfl
  · exact .inr rfl

/-- Settles O52: EQ is one `answer` with the bit of the comparison, which is set exactly when the
frames agree. -/
theorem eqComparesTheFrames : Obligations.EqComparesTheFrames := by
  refine ⟨by decide, fun s => ?_⟩
  obtain ⟨t, hexec, hreads, hres⟩ := answer_readsOnly s (bitWord (s.slot0.sameFrame s.slot1))
  refine ⟨t, hexec, hres ▸ hreads, ?_, ?_⟩
  · rw [hres]
    exact bitWord_eq_zero_or_one _
  · rw [hres, bitWord_eq_one]
    exact Slot.sameFrame_iff s.slot0 s.slot1

/-! ## Metadata (46_metadata_equality.md R220 to R223) -/

/-- Settles O51: GETMRK and GETUSR are one `answer` with the field, SETMRK and SETUSR one `update`
with the slot in which ARG0 replaces that field alone. -/
theorem metadataIsReadAndWritten : Obligations.MetadataIsReadAndWritten := by
  refine ⟨fun sl => by cases sl <;> decide, fun sl s => ⟨?getmrk, ?getusr, ?setmrk, ?setusr⟩⟩
  case getmrk => exact ⟨_, rfl, readsOnly_respond s (s.slot sl).marker⟩
  case getusr => exact ⟨_, rfl, readsOnly_respond s (s.slot sl).user⟩
  case setmrk => exact ⟨_, rfl, writesSlot_respond s sl { s.slot sl with marker := s.arg0 }⟩
  case setusr => exact ⟨_, rfl, writesSlot_respond s sl { s.slot sl with user := s.arg0 }⟩

end Sys2Proof.Machine

namespace Sys2Proof.Machine

/-! ## ENCODE (47_wire.md R242, R243) -/

/-- Byte 1 of an image: the flags and the format code, above them three zero bits. -/
theorem imgByte_imageOf_flags (s : Slot) : imgByte (imageOf s) 1 =
    0#3 ++ BitVec.ofBool s.esi ++ BitVec.ofBool s.brs ++ BitVec.ofBool s.rtr ++ s.fmt.code := by
  simp only [← flagBit_eq_ofBool]
  exact imgByte_imageOf s 1 (by decide)

/-- Settles O54: ENCODE responds with the image of its slot, whose bytes are those of the layout, a
payload byte being the visible one. -/
theorem encodeWritesTheImage : Obligations.EncodeWritesTheImage := by
  refine ⟨fun sl => by cases sl <;> decide, fun sl s => ?_⟩
  have hbyte := imgByte_imageOf (s.slot sl)
  exact ⟨_, rfl, ⟨rfl, rfl, rfl, rfl, rfl⟩, rfl, rfl, hbyte 0 (by decide),
    imgByte_imageOf_flags (s.slot sl), hbyte 2 (by decide), hbyte 3 (by decide),
    hbyte 4 (by decide), hbyte 5 (by decide), hbyte 6 (by decide), hbyte 7 (by decide),
    imgByte_imageOf_payload (s.slot sl)⟩

/-! ## The conditions on an image (47_wire.md R241) -/

theorem validV1_iff (img : Image) : validV1 img = true ↔ imgByte img 0 = 0x01 := beq_iff_eq

theorem validV2_iff (img : Image) : validV2 img = true ↔
    (imgByte img 1).extractLsb' 5 3 = 0 ∧ (imgByte img 2).extractLsb' 4 4 = 0 ∧
      imgByte img 3 = 0 := by
  simp only [validV2, Bool.and_eq_true, beq_iff_eq, and_assoc]

theorem validV3_iff (img : Image) : validV3 img = true ↔
    (imgDlc img).toNat ≤ if isFD (imgFmt img) then 15 else 8 := by
  rw [← dlcMax_eq]
  exact decide_eq_true_iff

theorem validV4_iff (img : Image) : validV4 img = true ↔
    imgId img &&& ~~~(if isExt (imgFmt img) then 0x1FFFFFFF else 0x000007FF) = 0 := by
  rw [← mask_eq]
  exact beq_iff_eq

theorem validV5_iff (img : Image) : validV5 img = true ↔
    if isFD (imgFmt img) then imgRtr img = false else imgBrs img = false ∧ imgEsi img = false := by
  unfold validV5
  split <;> simp

/-- Settles O56: `validImage` is the conjunction of the six checks, each of which says its condition;
DECODE asks for nothing else. -/
theorem validMeansTheSixConditions : Obligations.ValidMeansTheSixConditions := by
  refine ⟨fun img => ?valid, fun sl s => ?verdict⟩
  case valid =>
    rw [validImage_iff, validV1_iff, validV2_iff, validV3_iff, validV4_iff, validV5_iff,
      validV6_iff]
    rfl
  case verdict =>
    cases h : validImage s.ports.imgIn with
    | true => exact ⟨_, exec_decode_valid h, by simp⟩
    | false => exact ⟨_, exec_decode_invalid h, by simp⟩

/-! ## DECODE (47_wire.md R244) -/

/-- A response without an image leaves the model's own fields, both slots and IMG_OUT. -/
theorem respond_keepsFrames (s : State) (st : Status) (r : Word) :
    Responds s (s.respond st r) st r none ∧ KeepsFrames s (s.respond st r) :=
  ⟨⟨rfl, rfl, rfl, rfl, rfl⟩, rfl, rfl, rfl⟩

/-- Settles O57: DECODE of a valid image is one `update` with the slot of the image, and of any other
image one response. -/
theorem decodeWritesTheSlotOrReportsTheError :
    Obligations.DecodeWritesTheSlotOrReportsTheError := by
  refine ⟨fun sl => by cases sl <;> decide, fun sl s h => ?valid, fun sl s h => ?invalid⟩
  case valid =>
    obtain ⟨t, hexec, hwrites, hslot⟩ := update_writesSlot s sl (slotOfImage s.ports.imgIn)
    have hread := slotOfImage_read s.ports.imgIn
    refine ⟨t, (exec_decode_valid h).trans hexec, hwrites, ?_⟩
    rw [hslot]
    exact ⟨Format.code_ofCode _, rfl, rfl, rfl, rfl, rfl, fun i hi => (hread i).trans (if_pos hi),
      fun i hi => (hread i).trans (if_neg (Nat.not_lt.2 hi)), rfl, rfl⟩
  case invalid => exact ⟨_, exec_decode_invalid h, respond_keepsFrames s .protocolError 0⟩

/-! ## After a failed DECODE (47_wire.md R246) -/

/-- A SET-type answer is the same, but for the record, whatever responses were recorded before. -/
theorem update_of_any_record (s : State) (rs : List Response) (sl : SlotId) (x : Slot) :
    ∃ v resp, update s sl x = .next v ∧
      update { s with responses := rs } sl x = .next { v with responses := resp } := by
  cases sl with
  | s0 => exact ⟨_, _, rfl, rfl⟩
  | s1 => exact ⟨_, _, rfl, rfl⟩

/-- No command reads the record of responses. -/
theorem exec_of_any_record (i : Instr) (s : State) (rs : List Response) :
    ∃ v resp, exec i s = .next v ∧
      exec i { s with responses := rs } = .next { v with responses := resp } := by
  cases i with
  | getfmt sl | getid sl | getdlc sl | getsize sl | getrtr sl | getbrs sl | getesi sl | getfdf sl
  | getmrk sl | getusr sl | eq | getb sl pos | geth sl pos e | getw sl pos e | encode sl =>
    exact ⟨_, _, rfl, rfl⟩
  | clear sl | init sl f | setfmt sl f | setid sl | setdlc sl | setsize sl | setb sl pos
  | seth sl pos e | setw sl pos e | setrtr sl v | setbrs sl v | setesi sl v | setmrk sl | setusr sl =>
    exact update_of_any_record ..
  | decode sl =>
    cases h : validImage s.ports.imgIn with
    | true =>
      obtain ⟨v, resp, hv, hv'⟩ := update_of_any_record s rs sl (slotOfImage s.ports.imgIn)
      exact ⟨v, resp, (exec_decode_valid h).trans hv,
        (exec_decode_valid (s := { s with responses := rs }) h).trans hv'⟩
    | false => exact ⟨_, _, exec_decode_invalid h, exec_decode_invalid h⟩

/-- A step on a request, legal or not, reads neither what stood on the ports before nor the record of
responses. -/
theorem step_of_any_ports_and_record {s : State} {r : Request} {rest : List HostEvent}
    (h : s.host = .request r :: rest) (p : Request) (rs : List Response) :
    ∃ v resp, step s = .next v ∧
      step { s with ports := p, responses := rs } = .next { v with responses := resp } := by
  have h' : ({ s with ports := p, responses := rs } : State).host = .request r :: rest := h
  cases hd : decodeWord r.cmd with
  | ok i =>
    rw [step_request h hd, step_request h' hd]
    exact exec_of_any_record i (s.present r rest) rs
  | error e => exact ⟨_, _, step_illegal h hd, step_illegal h' hd⟩

/-- Settles O58: the failed DECODE changes STATUS, RES, the ports and the record only, and the next
step reads none of the four. -/
theorem failedDecodeIsIsolated : Obligations.FailedDecodeIsIsolated := by
  intro s r r' rest sl hhost hdecode hinvalid
  have hfail : step s = .next ((s.present r (.request r' :: rest)).respond .protocolError 0) :=
    (step_request hhost hdecode).trans (exec_decode_invalid hinvalid)
  obtain ⟨v, resp, hv, hv'⟩ := step_of_any_ports_and_record
    (s := { s with host := .request r' :: rest }) rfl r
    ({ status := .protocolError, res := 0, image := none } :: s.responses)
  exact ⟨_, _, v, resp, hfail, rfl, rfl, rfl,
    (step_of_any_response rfl .protocolError 0).trans hv', hv, rfl⟩

end Sys2Proof.Machine

namespace Sys2Proof

/-! ## The encoder and the decoder agree (30_encoding.md R70, R73, R75) -/

/-- Settles O17: the canonical word passes the reserved-bit test, its opcode selects the row of the
instruction, and each field the row reads is the operand that was packed. -/
theorem decodeOfEncode : Obligations.DecodeOfEncode := by
  intro i hi
  cases i with
  | clear sl | getfmt sl | getid sl | setid sl | getdlc sl | setdlc sl | getsize sl | setsize sl
  | getrtr sl | getbrs sl | getesi sl | getfdf sl | getmrk sl | setmrk sl | getusr sl | setusr sl
  | eq | encode sl | decode sl =>
    simp [encode, packS, decodeWord_packWord, decodeOpcode]
  | init sl f | setfmt sl f => simp [encode, packSF, decodeWord_packWord, decodeOpcode]
  | setrtr sl v | setbrs sl v | setesi sl v =>
    simp [encode, packSV, decodeWord_packWord, decodeOpcode]
  | getb sl pos | setb sl pos =>
    have hpos := (posFits_iff pos).1 hi
    simp [encode, packSP, decodeWord_packWord, decodeOpcode, Nat.mod_eq_of_lt hpos]
  | geth sl pos e | seth sl pos e | getw sl pos e | setw sl pos e =>
    have hpos := (posFits_iff pos).1 hi
    simp [encode, packSPE, decodeWord_packWord, decodeOpcode, Nat.mod_eq_of_lt hpos]

theorem flagBit_beq_one (b : BitVec 1) : flagBit (b == 1) = b := by
  revert b; decide

/-- The position field of every word fits. -/
theorem posFits_posField (w : Word) : posFits (posField w) = true :=
  (posFits_iff _).2 (BitVec.isLt _)

/-- The decoder gives well-formed instructions only. -/
theorem decodeOpcode_wellFormed {w : Word} {i : Instr} (h : decodeOpcode w = .ok i) :
    i.wellFormed = true := by
  unfold decodeOpcode at h
  split at h
  all_goals cases h
  all_goals simp only [Instr.wellFormed, posFits_posField]

/-- Masking a packed word masks each of its fields. -/
theorem packWord_and (p : BitVec 8) (v e : BitVec 1) (f : BitVec 2) (s : BitVec 1) (o : BitVec 5)
    (m : Word) : packWord p v e f s o &&& m =
      packWord (p &&& m.extractLsb' 16 8) (v &&& m.extractLsb' 9 1) (e &&& m.extractLsb' 8 1)
        (f &&& m.extractLsb' 6 2) (s &&& m.extractLsb' 5 1) (o &&& m.extractLsb' 0 5) := by
  apply BitVec.eq_of_getLsbD_eq
  intro i hi
  simp only [BitVec.getLsbD_and, packWord_getLsbD, BitVec.getLsbD_extractLsb']
  interval_cases i <;> simp

/-- The encoder packs the fields that the row of the opcode reads again, and 0 in place of the others:
what the mask of the row leaves of the word. -/
theorem encode_of_decodeOpcode_packWord {p : BitVec 8} {v e : BitVec 1} {f : BitVec 2}
    {s : BitVec 1} {o : BitVec 5} {i : Instr} (h : decodeOpcode (packWord p v e f s o) = .ok i) :
    encode i = packWord p v e f s o &&& fieldMask i := by
  have hp : p &&& 255#8 = p := BitVec.and_allOnes
  have hf : f &&& 3#2 = f := BitVec.and_allOnes
  have hbit (b : BitVec 1) : b &&& 1#1 = b := BitVec.and_allOnes
  have hs0 : SlotId.s0.bit = 0#1 := rfl
  rw [packWord_and]
  unfold decodeOpcode at h
  rw [opcField_packWord] at h
  split at h
  all_goals cases h
  all_goals
    rename_i ho
    obtain ⟨-, rfl⟩ := BitVec.toNat_eq_nat.1 ho
    simp only [encode, packS, packSF, packSP, packSPE, packSV, slotField_packWord,
      fmtField_packWord, endField_packWord, valField_packWord, posField_packWord, SlotId.bit_ofBit,
      Format.code_ofCode, Endian.bit_ofBit, flagBit_beq_one, BitVec.ofNat_toNat, BitVec.setWidth_eq,
      fieldMask]
    simp [hp, hf, hbit, hs0]

/-- Settles O18: a legal word is the pack of its fields. -/
theorem encodeOfDecode : Obligations.EncodeOfDecode := by
  intro w i h
  obtain ⟨h1, h0, hd⟩ := decodeWord_ok h
  refine ⟨decodeOpcode_wellFormed hd, ?_⟩
  rw [← packWord_fields w h1 h0] at hd ⊢
  exact encode_of_decodeOpcode_packWord hd

/-! ## The illegal words (30_encoding.md R76) -/

/-- The opcode map rejects the two reserved opcodes only. -/
theorem decodeOpcode_error_iff (w : Word) :
    (∃ e, decodeOpcode w = .error e) ↔ opcField w = 0x00 ∨ opcField w = 0x1F := by
  constructor
  · rintro ⟨e, h⟩
    have hlt := (opcField w).isLt
    simp only [← BitVec.toNat_inj]
    unfold decodeOpcode at h
    split at h
    case h_31 =>
      simp only [imp_false] at *
      show _ = 0 ∨ _ = 31
      omega
    all_goals cases h
  · rintro (ho | ho) <;> exact ⟨.reservedOpcode, by rw [decodeOpcode, ho]; rfl⟩

/-- The pre-check rejects the reserved opcodes and the words with a nonzero reserved field only. -/
theorem decodeWord_error_iff (w : Word) : (∃ e, decodeWord w = .error e) ↔
    opcField w = 0x00 ∨ opcField w = 0x1F ∨ rsv0Field w ≠ 0 ∨ rsv1Field w ≠ 0 := by
  unfold decodeWord
  split
  case isTrue hr => exact ⟨fun _ => .inr (.inr hr.symm), fun _ => ⟨_, rfl⟩⟩
  case isFalse hr =>
    rw [decodeOpcode_error_iff, ← or_assoc, or_comm (a := rsv0Field w ≠ 0), or_iff_left hr]

end Sys2Proof

namespace Sys2Proof.Machine

/-- A step on an illegal word answers ILLEGAL with RES 0, uses the request up and keeps both slots and
IMG_OUT (60_exceptions.md R270). -/
theorem step_illegal_answer {s : State} {r : Request} {rest : List HostEvent} {e : DecodeError}
    (h : s.host = .request r :: rest) (hd : decodeWord r.cmd = .error e) :
    ∃ t, step s = .next t ∧ t.status = .illegal ∧ t.res = 0 ∧ KeepsFrames s t ∧ t.host = rest ∧
      t.responses = { status := .illegal, res := 0, image := none } :: s.responses :=
  ⟨_, step_illegal h hd, rfl, rfl, ⟨rfl, rfl, rfl⟩, rfl, rfl⟩

/-- Settles O15: the decoder's test, and the answer to a rejected word. -/
theorem illegalWordsAreExactlyTheReservedOnes :
    Obligations.IllegalWordsAreExactlyTheReservedOnes := by
  refine ⟨decodeWord_error_iff, fun s r rest e h hd => ?_⟩
  obtain ⟨t, hstep, hstatus, hres, hkeeps, -⟩ := step_illegal_answer h hd
  exact ⟨t, hstep, hstatus, hres, hkeeps⟩

/-- Settles O7: each of the four causes makes the decoder reject the word. -/
theorem illegalWordIsAnsweredIllegal : Obligations.IllegalWordIsAnsweredIllegal := by
  refine ⟨rfl, fun s r rest h hcause => ?_⟩
  obtain ⟨e, hd⟩ := (decodeWord_error_iff r.cmd).2 hcause
  exact step_illegal_answer h hd

/-! ## What a step does to a property of the slots (10_state.md R30; log entry 13) -/

/-- A command keeps a property of both slots that the good updates keep. -/
theorem exec_keeps_slots {P : Slot → Prop} (hgood : ∀ x y, GoodUpdate x y → P x → P y) {i : Instr}
    {s t : State} (h : exec i s = .next t) (hs : ∀ sl, P (s.slot sl)) (sl : SlotId) :
    P (t.slot sl) := by
  rcases exec_forms i s with ⟨-, r, he⟩ | ⟨sl', x, -, -, hx, he⟩ | ⟨sl', -, he⟩ | ⟨sl', -, -, he⟩
  case inr.inl =>
    cases he.symm.trans h
    rw [State.respond_slot]
    by_cases hsl : sl = sl'
    · subst hsl
      rw [State.setSlot_slot]
      exact hgood _ x hx (hs sl)
    · rw [State.setSlot_slot_ne s sl' sl x hsl]
      exact hs sl
  all_goals
    cases he.symm.trans h
    simpa using hs sl

/-- A step keeps a property of both slots that the cleared slot has and the good updates keep. -/
theorem step_keeps_slots {P : Slot → Prop} (hcleared : P Slot.cleared)
    (hgood : ∀ x y, GoodUpdate x y → P x → P y) {s t : State} (h : step s = .next t)
    (hs : P s.slot0 ∧ P s.slot1) : P t.slot0 ∧ P t.slot1 := by
  rcases step_cases s with ⟨-, he⟩ | ⟨rest, -, he⟩ | ⟨r, rest, e, -, -, he⟩ | ⟨r, rest, i, -, -, he⟩
  case inr.inr.inr =>
    have hs' := (State.both_slots_iff (s.present r rest) P).1 hs
    exact (State.both_slots_iff t P).2 (exec_keeps_slots hgood (he.symm.trans h) hs')
  case inr.inl =>
    cases he.symm.trans h
    exact ⟨hcleared, hcleared⟩
  all_goals
    cases he.symm.trans h
    exact hs

/-- Settles O20: every update of a slot keeps INV. -/
theorem slotInvariantIsKept : Obligations.SlotInvariantIsKept :=
  ⟨⟨Slot.cleared_inv, Slot.cleared_inv⟩,
    fun _ _ hs h => step_keeps_slots Slot.cleared_inv (fun _ _ hg hx => hg.1 hx) h hs⟩

/-- Settles O21: every update of a slot keeps the canonical form of its store. -/
theorem payloadStoresStayCanonical : Obligations.PayloadStoresStayCanonical := fun _ _ hs h =>
  step_keeps_slots (P := fun x => x.p.wf = true) rfl (fun _ _ hg hx => hg.2 hx) h hs

/-! ## Images of slots with INV (47_wire.md R241, R242) -/

/-- The header of an image has its reserved bits clear. -/
theorem imageOf_validV2 (s : Slot) : validV2 (imageOf s) = true := by
  have hflags : (flagsByte s).extractLsb' 5 3 = 0 := by
    unfold flagsByte
    cases s.fmt <;> cases s.rtr <;> cases s.brs <;> cases s.esi <;> decide
  have hdlc : (0#4 ++ s.dlc).extractLsb' 4 4 = 0 := BitVec.extractLsb'_append_eq_left
  rw [validV2_iff, imgByte_imageOf s 1 (by decide), imgByte_imageOf s 2 (by decide),
    imgByte_imageOf s 3 (by decide)]
  exact ⟨hflags, hdlc, rfl⟩

/-- The image of a slot with INV is valid: V3 to V5 are the clauses of INV, and the padding is the
hidden bytes, which are sent as 0. -/
theorem imageOf_valid {s : Slot} (h : s.Inv) : validImage (imageOf s) = true := by
  obtain ⟨hid, hdlc, hfd, hclassic⟩ := h
  refine (validImage_iff _).2 ⟨(validV1_iff _).2 (imgByte_imageOf s 0 (by decide)),
    imageOf_validV2 s, ?v3, ?v4, ?v5, ?v6⟩
  case v3 => simpa [validV3] using hdlc
  case v4 => simpa [validV4] using hid
  case v5 =>
    rw [validV5_iff, imgFmt_imageOf, imgRtr_imageOf, imgBrs_imageOf, imgEsi_imageOf]
    cases hf : isFD s.fmt with
    | true => exact hfd hf
    | false => exact hclassic hf
  case v6 =>
    rw [validV6_iff, imgFmt_imageOf, imgDlc_imageOf]
    intro i hsize hi
    rw [imgByte_imageOf_payload s i hi, Slot.visible_of_hidden hsize]

/-- Settles O55: the image of a slot with INV meets V1 to V6, and `slotOfImage` of a valid image has
INV. -/
theorem imagesAndGoodSlotsCorrespond : Obligations.ImagesAndGoodSlotsCorrespond := by
  refine ⟨fun s h => imageOf_valid h, fun sl s h => ⟨_, exec_decode_valid h, ?_⟩⟩
  rw [State.respond_slot, State.setSlot_slot]
  exact slotOfImage_inv h

/-- A command keeps IMG_OUT, or is ENCODE and writes the image of a slot. -/
theorem exec_imgOut_cases {i : Instr} {s t : State} (h : exec i s = .next t) :
    t.imgOut = s.imgOut ∨ ∃ sl, t.imgOut = imageOf (s.slot sl) := by
  by_cases hi : ∃ sl, i = .encode sl
  · obtain ⟨sl, rfl⟩ := hi
    cases h
    exact .inr ⟨sl, rfl⟩
  · exact .inl (exec_imgOut h (not_exists.1 hi))

/-- Settles O22: reset writes the zero image, ENCODE the image of a slot with INV, which is valid, and
nothing else writes IMG_OUT. -/
theorem imgOutStaysWellFormed : Obligations.ImgOutStaysWellFormed := by
  intro s t hinv himg h
  rcases step_cases s with ⟨-, he⟩ | ⟨rest, -, he⟩ | ⟨r, rest, e, -, -, he⟩ | ⟨r, rest, i, -, -, he⟩
  case inr.inr.inr =>
    rcases exec_imgOut_cases (he.symm.trans h) with hkept | ⟨sl, hwritten⟩
    · rwa [State.imgOutWf, hkept]
    · have hslot := (State.both_slots_iff (s.present r rest) Slot.Inv).1 hinv sl
      exact .inr (hwritten ▸ imageOf_valid hslot)
  case inr.inl =>
    cases he.symm.trans h
    exact .inl rfl
  all_goals
    cases he.symm.trans h
    exact himg

end Sys2Proof.Machine
namespace Sys2Proof.Machine

/-! ## EQ is symmetric (46_metadata_equality.md R224) -/

/-- With equal formats and DLCs the sizes agree, so both orders compare the same positions. -/
theorem Slot.sameFrame_comm (a b : Slot) : Slot.sameFrame a b = Slot.sameFrame b a := by
  have swap {a b : Slot} (h : Slot.sameFrame a b = true) : Slot.sameFrame b a = true := by
    obtain ⟨hfmt, hid, hdlc, hbytes⟩ := (Slot.sameFrame_iff a b).1 h
    have hsize : b.size = a.size := by unfold Slot.size; rw [hfmt, hdlc]
    exact (Slot.sameFrame_iff b a).2
      ⟨hfmt.symm, hid.symm, hdlc.symm, fun i hi => (hbytes i (hsize ▸ hi)).symm⟩
  exact Bool.eq_iff_iff.2 ⟨swap, swap⟩

/-- Settles O53: EQ is one `answer` with the bit of the comparison, which is symmetric. -/
theorem eqIsSymmetric : Obligations.EqIsSymmetric := fun s =>
  ⟨_, _, rfl, rfl, congrArg bitWord (Slot.sameFrame_comm s.slot1 s.slot0)⟩

/-- EQ returns 1 when two different slots hold the same frame, whichever of the two is slot 0. -/
theorem exec_eq_of_sameFrame {s : State} {sl sl' : SlotId} (hne : sl ≠ sl')
    (h : Slot.sameFrame (s.slot sl) (s.slot sl') = true) :
    ∃ t, exec .eq s = .next t ∧ t.res = 1 := by
  refine ⟨_, rfl, (bitWord_eq_one _).2 ?_⟩
  cases sl with
  | s0 => cases sl' with
    | s0 => exact absurd rfl hne
    | s1 => exact h
  | s1 => cases sl' with
    | s0 => rwa [Slot.sameFrame_comm]
    | s1 => exact absurd rfl hne

/-! ## Round trips of the wire image (47_wire.md R245) -/

/-- The payload that an image of a slot carries is the visible payload: a hidden position is sent as 0
and no position from 64 up is visible. -/
theorem slotOfImage_imageOf_read (s : Slot) (i : Nat) :
    (slotOfImage (imageOf s)).p.read i = s.visible i := by
  rw [slotOfImage_read]
  split
  case isTrue hi => exact imgByte_imageOf_payload s i hi
  case isFalse hi =>
    have := s.size_le
    exact (Slot.visible_of_hidden (by omega)).symm

/-- Decoding the image of a bare slot gives the slot back. -/
theorem slotOfImage_imageOf {s : Slot} (h : s.Bare) : slotOfImage (imageOf s) = s := by
  obtain ⟨-, hwf, hhidden, hmarker, huser⟩ := h
  have hp : (slotOfImage (imageOf s)).p = s.p := by
    refine Memory.ext_wf (slotOfImage_wf _) hwf fun i => ?_
    rw [slotOfImage_imageOf_read]
    by_cases hi : i < s.size
    · exact Slot.visible_of_lt hi
    · have hi := Nat.not_lt.1 hi
      rw [Slot.visible_of_hidden hi, hhidden i hi]
  apply Slot.ext <;> simp only [slotOfImage_fmt, slotOfImage_id, slotOfImage_dlc, slotOfImage_rtr,
    slotOfImage_brs, slotOfImage_esi, slotOfImage_marker, slotOfImage_user, imgFmt_imageOf,
    imgId_imageOf, imgDlc_imageOf, imgRtr_imageOf, imgBrs_imageOf, imgEsi_imageOf, hp, hmarker, huser]

/-- A valid image decodes to a bare slot: its padding is 0. -/
theorem slotOfImage_bare {img : Image} (h : validImage img = true) : (slotOfImage img).Bare := by
  refine ⟨slotOfImage_inv h, slotOfImage_wf img, fun i hi => ?_, rfl, rfl⟩
  obtain ⟨-, -, -, -, -, hpadding⟩ := (validImage_iff img).1 h
  rw [slotOfImage_read]
  split
  case isTrue hi' => exact (validV6_iff img).1 hpadding i hi hi'
  case isFalse => rfl

/-- A slot holds the same frame as the slot that its image decodes to. -/
theorem sameFrame_slotOfImage_imageOf (s : Slot) :
    Slot.sameFrame s (slotOfImage (imageOf s)) = true := by
  refine (Slot.sameFrame_iff _ _).2 ⟨?_, ?_, ?_, fun i hi => ?_⟩
  · rw [slotOfImage_fmt, imgFmt_imageOf]
  · rw [slotOfImage_id, imgId_imageOf]
  · rw [slotOfImage_dlc, imgDlc_imageOf]
  · rw [slotOfImage_imageOf_read, Slot.visible_of_lt hi]

/-- ENCODE of a slot with INV and DECODE of its image answer OK; the target slot is then the decoded
image, and every other slot is as it was. -/
theorem exec_encode_decode (src dst : SlotId) {s : State} (h : (s.slot src).Inv) :
    ∃ t u, exec (.encode src) s = .next t ∧
      exec (.decode dst) { t with ports := { t.ports with imgIn := t.imgOut } } = .next u ∧
      u.status = .ok ∧ u.slot dst = slotOfImage (imageOf (s.slot src)) ∧
      ∀ sl, sl ≠ dst → u.slot sl = s.slot sl := by
  refine ⟨_, _, rfl, exec_decode_valid (imageOf_valid h), rfl, ?_, fun sl hsl => ?_⟩
  · rw [State.respond_slot, State.setSlot_slot]
    rfl
  · rw [State.respond_slot, State.setSlot_slot_ne _ _ _ _ hsl]
    cases sl <;> rfl

/-- Settles O59: `slotOfImage` of an image carries the fields and the visible payload (a), and
`imageOf` and `slotOfImage` are inverse between the bare slots and the valid images (b, c). -/
theorem wireImageRoundTrips : Obligations.WireImageRoundTrips := by
  refine ⟨fun src dst s h => ?frame, fun sl s h => ?image, fun a ha => imageOf_valid ha.1,
    fun a b ha hb hab => ?injective, fun img h => ⟨_, slotOfImage_bare h, imageOf_slotOfImage h⟩⟩
  case frame =>
    obtain ⟨t, u, hencode, hdecode, hstatus, hdst, hothers⟩ := exec_encode_decode src dst h
    refine ⟨t, u, hencode, hdecode, hstatus, ?_⟩
    have heq (hne : src ≠ dst) : ∃ v, exec .eq u = .next v ∧ v.res = 1 :=
      exec_eq_of_sameFrame hne (by rw [hdst, hothers src hne]; exact sameFrame_slotOfImage_imageOf _)
    have hread := slotOfImage_imageOf_read (s.slot src)
    rw [hdst]
    simp only [slotOfImage_fmt, slotOfImage_id, slotOfImage_dlc, slotOfImage_rtr, slotOfImage_brs,
      slotOfImage_esi, imgFmt_imageOf, imgId_imageOf, imgDlc_imageOf, imgRtr_imageOf, imgBrs_imageOf,
      imgEsi_imageOf, true_and]
    exact ⟨fun i hi => (hread i).trans (Slot.visible_of_lt hi),
      fun i hi => (hread i).trans (Slot.visible_of_hidden hi), rfl, rfl, heq⟩
  case image =>
    refine ⟨_, _, exec_decode_valid h, rfl, ?_⟩
    rw [State.respondImage_imgOut, State.respond_slot, State.setSlot_slot, imageOf_slotOfImage h]
  case injective =>
    calc a = slotOfImage (imageOf a) := (slotOfImage_imageOf ha).symm
      _ = slotOfImage (imageOf b) := congrArg slotOfImage hab
      _ = b := slotOfImage_imageOf hb

end Sys2Proof.Machine

namespace Sys2Proof.Machine

/-! ## Reset and the step (70_reset_and_hazards.md R300, 30_encoding.md R78, R79) -/

theorem Slot.sameFrame_refl (a : Slot) : Slot.sameFrame a a = true :=
  (Slot.sameFrame_iff a a).2 ⟨rfl, rfl, rfl, fun _ _ => rfl⟩

/-- Settles O3: an asserted reset leaves both slots as CLEAR does, and the cleared slot equals itself. -/
theorem assertedResetClearsTheBlock : Obligations.AssertedResetClearsTheBlock := fun s _ h =>
  ⟨_, step_reset h, rfl, fun sl => ⟨_, rfl, by cases sl <;> rfl⟩, rfl, rfl, imgByte_zeroImage,
    ⟨Slot.cleared_inv, Slot.cleared_inv⟩, _, rfl,
    (bitWord_eq_one _).2 (Slot.sameFrame_refl Slot.cleared)⟩

/-- Settles O2: the reset slots are the cleared ones, and IMG_OUT has its reset value. -/
theorem resetMeetsInvariants : Obligations.ResetMeetsInvariants :=
  ⟨⟨Slot.cleared_inv, Slot.cleared_inv⟩, ⟨rfl, rfl⟩, .inl rfl⟩

/-- Settles O4: the two branches of the step that run no command. -/
theorem idleHoldsStateAndResetReturnsNoResponse :
    Obligations.IdleHoldsStateAndResetReturnsNoResponse :=
  ⟨fun _ h => step_idle h, fun _ _ h => ⟨_, step_reset h, rfl, rfl⟩⟩

/-- Settles O5: the branch of the step for a legal word. -/
theorem stepRunsTheDecodedCommand : Obligations.StepRunsTheDecodedCommand := fun _ _ _ _ h hd =>
  step_request h hd

/-- A table word that decodes is, as a command word, decoded to the same instruction. -/
theorem decodeWord_of_decodeTableWord {w : Nat} {i : Instr} (h : decodeTableWord 32 w = some i) :
    decodeWord (BitVec.ofNat 32 (w % 2 ^ 32)) = .ok i := by
  unfold decodeTableWord at h
  rw [if_pos (Nat.mod_lt _ (by decide))] at h
  split at h
  case h_1 hd => rw [hd, Option.some.inj h]
  case h_2 => cases h

/-- Settles O6: the placed word is the first event of the host, and the bits above bit 31 are not
part of it. -/
theorem placedWordRunsNext : Obligations.PlacedWordRunsNext := by
  intro s w i h
  have hw : BitVec.ofNat 32 (w % 2 ^ 32) = BitVec.ofNat 32 w := by
    apply BitVec.eq_of_toNat_eq
    simp only [BitVec.toNat_ofNat, Nat.mod_mod]
  have hd := decodeWord_of_decodeTableWord h
  rw [State.withFetchWord, hw]
  rw [hw] at hd
  exact step_request (State.pushCommand_host ..) hd

/-- Settles O8: the request replaces the ports before anything reads them. -/
theorem portsCarryNothingBetweenCommands : Obligations.PortsCarryNothingBetweenCommands := by
  intro s r p rest h
  have h' : ({ s with ports := p } : State).host = .request r :: rest := h
  cases hd : decodeWord r.cmd with
  | ok i => rw [step_request h hd, step_request h' hd]; rfl
  | error e => rw [step_illegal h hd, step_illegal h' hd]; rfl

/-- Settles O16: each word is evaluated by the decoder. -/
theorem wordsOfTheSpecDecode : Obligations.WordsOfTheSpecDecode := by
  unfold Obligations.WordsOfTheSpecDecode
  decide

/-- The frame of CAN_STD with identifier and DLC 0 is the empty frame. -/
theorem Slot.constructed_zero : Slot.constructed .canStd 0 0 = Slot.cleared := by decide

/-- Settles O28: both commands are one `update`, with the same slot. -/
theorem initOfZerosIsClear : Obligations.InitOfZerosIsClear := by
  intro sl s h0 h1
  refine ⟨_, _, rfl, rfl, ?_⟩
  rw [State.arg0, State.arg1, h0, h1, Slot.constructed_zero]

/-! ## Every request gets one response (60_exceptions.md, section 1; 30_encoding.md, section 5) -/

/-- The step on a request, legal or not, uses the request up and records one response. -/
theorem step_request_responds {s : State} {r : Request} {rest : List HostEvent}
    (h : s.host = .request r :: rest) : ∃ t img, step s = .next t ∧ t.host = rest ∧
      t.responses = { status := t.status, res := t.res, image := img } :: s.responses := by
  cases hd : decodeWord r.cmd with
  | ok i =>
    obtain ⟨t, img, hexec, hhost, -, hresp⟩ := exec_responds i (s.present r rest)
    exact ⟨t, img, (step_request h hd).trans hexec, hhost, hresp⟩
  | error e => exact ⟨_, none, step_illegal h hd, rfl, rfl⟩

/-- The step on any event uses the event up and records a response when it is a request. -/
theorem step_event {s : State} {e : HostEvent} {rest : List HostEvent} (h : s.host = e :: rest) :
    ∃ t, step s = .next t ∧ t.host = rest ∧
      t.responses.length = s.responses.length + requestCount [e] := by
  cases e with
  | reset => exact ⟨_, step_reset h, rfl, rfl⟩
  | request r =>
    obtain ⟨t, img, hstep, hhost, hresp⟩ := step_request_responds h
    exact ⟨t, hstep, hhost, congrArg List.length hresp⟩

/-- Settles O10: with no event the step idles, on an event it uses it up. -/
theorem everyStepAnswers : Obligations.EveryStepAnswers := by
  refine ⟨fun s => ?_, fun s r rest h => step_request_responds h⟩
  match h : s.host with
  | [] => exact ⟨s, step_idle h⟩
  | e :: rest =>
    obtain ⟨t, hstep, -⟩ := step_event h
    exact ⟨t, hstep⟩

theorem requestCount_cons (e : HostEvent) (rest : List HostEvent) :
    requestCount (e :: rest) = requestCount [e] + requestCount rest := by
  cases e with
  | reset => exact (Nat.zero_add _).symm
  | request r => exact Nat.add_comm ..

/-- A run that can make its first step goes on from there. -/
theorem run_succ_of_step (M : Host.Core) {s t : M.State} (h : M.step s = .next t) (k : Nat) :
    M.run (k + 1) s = M.run k t := by
  rw [Host.Core.run, h]

/-- Settles O11, by induction on the host's list: a step per event. -/
theorem runAnswersEveryRequestOnce : Obligations.RunAnswersEveryRequestOnce := by
  intro s
  generalize hevents : s.host = events
  induction events generalizing s with
  | nil => exact ⟨s, rfl, hevents, rfl⟩
  | cons e rest ih =>
    obtain ⟨t, hstep, hhost, hlen⟩ := step_event hevents
    obtain ⟨u, hrun, hempty, hcount⟩ := ih t hhost
    refine ⟨u, (run_succ_of_step core hstep rest.length).trans hrun, hempty, ?_⟩
    rw [hcount, hlen, requestCount_cons e rest, Nat.add_assoc]

/-! ## STATUS and RES (60_exceptions.md R271, R272; 10_state.md R34) -/

/-- Settles O12: the four forms of a command give OK, but for DECODE of an invalid image. -/
theorem onlyDecodeReportsProtocolError : Obligations.OnlyDecodeReportsProtocolError := by
  refine ⟨fun i s => ?_, fun sl s h => ⟨_, exec_decode_invalid h, rfl⟩⟩
  rcases exec_forms i s with ⟨-, r, h⟩ | ⟨sl, x, -, -, -, h⟩ | ⟨sl, -, h⟩ | ⟨sl, rfl, himg, h⟩
  · exact ⟨_, h, .inl rfl⟩
  · exact ⟨_, h, .inl rfl⟩
  · exact ⟨_, h, .inl rfl⟩
  · exact ⟨_, h, .inr ⟨rfl, ⟨sl, rfl⟩, himg⟩⟩

/-- A command that is no read, or does not answer OK, leaves RES 0. -/
theorem exec_res_zero {i : Instr} {s t : State} (h : exec i s = .next t)
    (hi : isRead i = false ∨ t.status ≠ .ok) : t.res = 0 := by
  rcases exec_forms i s with ⟨hread, r, he⟩ | ⟨sl, x, -, -, -, he⟩ | ⟨sl, -, he⟩ | ⟨sl, -, -, he⟩
  case inl =>
    cases he.symm.trans h
    rcases hi with hi | hi
    · rw [hread] at hi
      cases hi
    · exact absurd rfl hi
  all_goals
    cases he.symm.trans h
    rfl

/-- Settles O13: a legal word runs its command, and an illegal one is answered with RES 0. -/
theorem resIsZeroUnlessAReadSucceeds : Obligations.ResIsZeroUnlessAReadSucceeds := by
  intro s t r rest h ht hr
  cases hd : decodeWord r.cmd with
  | ok i => exact exec_res_zero ((step_request h hd).symm.trans ht) (hr.imp_left fun hi => hi i hd)
  | error e =>
    cases (step_illegal h hd).symm.trans ht
    rfl

end Sys2Proof.Machine

namespace Sys2Proof.Machine

/-! ## Reads, and the same request twice (20_memory.md R59) -/

/-- A GET command and EQ are one `answer`. -/
theorem exec_read {i : Instr} (hi : isRead i = true) (s : State) :
    ∃ r, exec i s = .next (s.respond .ok r) := by
  rcases exec_forms i s with ⟨-, h⟩ | ⟨sl, x, -, hx, -⟩ | ⟨sl, rfl, -⟩ | ⟨sl, rfl, -⟩
  · exact h
  · rw [hx] at hi
    cases hi
  · cases hi
  · cases hi

/-- What a command does to the slots, as a function of the slot it works on: with the request on the
ports it either keeps both slots, or replaces its slot by a function of it that has no further effect
when it is applied again. -/
theorem exec_slots_forms (i : Instr) (r : Request) :
    (∀ s : State, s.ports = r → ∃ t, exec i s = .next t ∧ t.frames = s.frames) ∨
    ∃ sl, ∃ g : Slot → Slot, (∀ x, x.p.wf = true → g (g x) = g x) ∧ ∀ s : State, s.ports = r →
      exec i s = .next ((s.setSlot sl (g (s.slot sl))).respond .ok 0) := by
  cases i with
  | getfmt sl | getid sl | getdlc sl | getsize sl | getb sl pos | geth sl pos e | getw sl pos e
  | getrtr sl | getbrs sl | getesi sl | getfdf sl | getmrk sl | getusr sl | eq | encode sl =>
    exact .inl fun _ _ => ⟨_, rfl, rfl⟩
  | clear sl => exact .inr ⟨sl, fun _ => Slot.cleared, fun _ _ => rfl, fun _ _ => rfl⟩
  | init sl f =>
    exact .inr ⟨sl, fun _ => Slot.constructed f r.arg0 r.arg1, fun _ _ => rfl,
      fun _ h => by subst h; rfl⟩
  | setfmt sl f =>
    exact .inr ⟨sl, fun x => x.changeFormat f, fun x _ => x.changeFormat_idem f, fun _ _ => rfl⟩
  | setid sl =>
    exact .inr ⟨sl, fun x => x.setId r.arg0, fun _ _ => rfl, fun _ h => by subst h; rfl⟩
  | setdlc sl =>
    exact .inr ⟨sl, fun x => x.setDlc (clampDlc x.fmt r.arg0), fun _ _ => rfl,
      fun _ h => by subst h; rfl⟩
  | setsize sl =>
    exact .inr ⟨sl, fun x => x.setDlc (lenToDlc x.fmt r.arg0.toNat), fun _ _ => rfl,
      fun _ h => by subst h; rfl⟩
  | setb sl pos =>
    exact .inr ⟨sl, fun x => x.memWrite pos 1 (r.arg0 &&& 0xFF) .little,
      fun _ h => Slot.memWrite_idem h .., fun _ h => by subst h; rfl⟩
  | seth sl pos e =>
    exact .inr ⟨sl, fun x => x.memWrite pos 2 (r.arg0 &&& 0xFFFF) e,
      fun _ h => Slot.memWrite_idem h .., fun _ h => by subst h; rfl⟩
  | setw sl pos e =>
    exact .inr ⟨sl, fun x => x.memWrite pos 4 r.arg0 e, fun _ h => Slot.memWrite_idem h ..,
      fun _ h => by subst h; rfl⟩
  | setrtr sl v =>
    refine .inr ⟨sl, fun x => x.writeRtr v, fun x _ => ?_, fun _ _ => rfl⟩
    cases h : isFD x.fmt <;> simp [Slot.writeRtr, h]
  | setbrs sl v =>
    refine .inr ⟨sl, fun x => x.writeBrs v, fun x _ => ?_, fun _ _ => rfl⟩
    cases h : isFD x.fmt <;> simp [Slot.writeBrs, h]
  | setesi sl v =>
    refine .inr ⟨sl, fun x => x.writeEsi v, fun x _ => ?_, fun _ _ => rfl⟩
    cases h : isFD x.fmt <;> simp [Slot.writeEsi, h]
  | setmrk sl =>
    exact .inr ⟨sl, fun x => { x with marker := r.arg0 }, fun _ _ => rfl,
      fun _ h => by subst h; rfl⟩
  | setusr sl =>
    exact .inr ⟨sl, fun x => { x with user := r.arg0 }, fun _ _ => rfl,
      fun _ h => by subst h; rfl⟩
  | decode sl =>
    cases himg : validImage r.imgIn with
    | true =>
      refine .inr ⟨sl, fun _ => slotOfImage r.imgIn, fun _ _ => rfl, fun _ h => ?_⟩
      subst h
      exact exec_decode_valid himg
    | false =>
      refine .inl fun _ h => ?_
      subst h
      exact ⟨_, exec_decode_invalid himg, rfl⟩

theorem State.slot_eq_of_frames {s t : State} (h : s.frames = t.frames) (sl : SlotId) :
    s.slot sl = t.slot sl := by
  cases sl with
  | s0 => exact congrArg Prod.fst h
  | s1 => exact congrArg Prod.snd h

/-- A command that runs again, on the slots it left and the same ports, leaves them as they are. -/
theorem exec_again_frames {i : Instr} {s t s' : State} (hwf : s.storesWf) (h : exec i s = .next t)
    (hports : s'.ports = s.ports) (hframes : s'.frames = t.frames) :
    ∃ u, exec i s' = .next u ∧ u.frames = t.frames := by
  rcases exec_slots_forms i s.ports with hkeeps | ⟨sl, g, hg, hexec⟩
  · obtain ⟨u, hu, hsame⟩ := hkeeps s' hports
    exact ⟨u, hu, hsame.trans hframes⟩
  · cases (hexec s rfl).symm.trans h
    have hslot : s'.slot sl = g (s.slot sl) := by
      rw [State.slot_eq_of_frames hframes, State.respond_slot, State.setSlot_slot]
    have hfixed : g (s'.slot sl) = s'.slot sl := by
      rw [hslot, hg _ ((s.both_slots_iff fun x => x.p.wf = true).1 hwf sl)]
    refine ⟨_, hexec s' hports, ?_⟩
    rw [hfixed, State.setSlot_self]
    exact hframes

/-- The same request twice, legal or not, leaves the slots as once. -/
theorem step_again_frames {s : State} {r : Request} {rest : List HostEvent} (hwf : s.storesWf)
    (h : s.host = .request r :: .request r :: rest) :
    ∃ t u, step s = .next t ∧ step t = .next u ∧ u.frames = t.frames := by
  cases hd : decodeWord r.cmd with
  | error e => exact ⟨_, _, step_illegal h hd, step_illegal rfl hd, rfl⟩
  | ok i =>
    obtain ⟨t, -, hexec, hhost, -⟩ := exec_responds i (s.present r (.request r :: rest))
    obtain ⟨u, hagain, hframes⟩ := exec_again_frames (s := s.present r (.request r :: rest))
      (s' := t.present r rest) hwf hexec rfl rfl
    exact ⟨t, u, (step_request h hd).trans hexec, (step_request hhost hd).trans hagain, hframes⟩

/-- Settles O23: a read is one response, and every slot update is idempotent. -/
theorem readsHaveNoSideEffectAndCommandsAreIdempotent :
    Obligations.ReadsHaveNoSideEffectAndCommandsAreIdempotent := by
  refine ⟨fun i s hi => ?_, fun s r rest hwf h => step_again_frames hwf h⟩
  obtain ⟨r, hexec⟩ := exec_read hi s
  exact ⟨_, r, hexec, readsOnly_respond s r⟩

/-! ## The slot a command does not work on (10_state.md, section 1) -/

/-- A SET-type answer keeps the other slot and does not read it. -/
theorem update_setSlot_other (s : State) (sl : SlotId) (x y : Slot) :
    ∃ t, update s sl y = .next t ∧ t.slot (other sl) = s.slot (other sl) ∧
      update (s.setSlot (other sl) x) sl y = .next (t.setSlot (other sl) x) := by
  refine ⟨_, rfl, by rw [State.respond_slot, State.setSlot_slot_other], ?_⟩
  rw [update, State.setSlot_respond, State.setSlot_comm]

/-- A command that names a slot finds it the same whatever the other slot holds. -/
theorem exec_setSlot_other {i : Instr} {sl : SlotId} (hi : target i = some sl) (s : State) (x : Slot) :
    ∃ t, exec i s = .next t ∧ t.slot (other sl) = s.slot (other sl) ∧
      exec i (s.setSlot (other sl) x) = .next (t.setSlot (other sl) x) := by
  cases i with
  | eq => cases hi
  | getfmt sl | getid sl | getdlc sl | getsize sl | getb sl pos | geth sl pos e | getw sl pos e
  | getrtr sl | getbrs sl | getesi sl | getfdf sl | getmrk sl | getusr sl | encode sl =>
    cases hi
    cases sl with
    | s0 | s1 => exact ⟨_, rfl, rfl, rfl⟩
  | clear sl | init sl f | setfmt sl f | setid sl | setdlc sl | setsize sl | setb sl pos
  | seth sl pos e | setw sl pos e | setrtr sl v | setbrs sl v | setesi sl v | setmrk sl | setusr sl =>
    cases hi
    cases sl with
    | s0 | s1 => exact update_setSlot_other ..
  | decode sl =>
    cases hi
    have hports : (s.setSlot (other sl) x).ports = s.ports := State.setSlot_ports ..
    cases himg : validImage s.ports.imgIn with
    | true =>
      obtain ⟨t, hexec, hother, hexec'⟩ := update_setSlot_other s sl x (slotOfImage s.ports.imgIn)
      refine ⟨t, (exec_decode_valid himg).trans hexec, hother, ?_⟩
      rw [exec_decode_valid (hports ▸ himg), hports]
      exact hexec'
    | false =>
      refine ⟨_, exec_decode_invalid himg, State.respond_slot .., ?_⟩
      rw [exec_decode_invalid (hports ▸ himg), State.setSlot_respond]

/-- Settles O24: a command reads and writes the slots through the slot that it names. -/
theorem slotsAreIndependent : Obligations.SlotsAreIndependent := fun _ _ s x hi =>
  exec_setSlot_other hi s x

/-! ## The writers of each field (10_state.md, section 4) -/

/-- A command changes a slot only when it names the slot and is no read. -/
theorem exec_changes_slot {i : Instr} {s t : State} {sl : SlotId} (h : exec i s = .next t)
    (hne : t.slot sl ≠ s.slot sl) : target i = some sl ∧ isRead i = false := by
  rcases exec_forms i s with ⟨-, r, he⟩ | ⟨sl', x, htarget, hread, -, he⟩ | ⟨sl', -, he⟩ |
    ⟨sl', -, -, he⟩
  case inr.inl =>
    cases he.symm.trans h
    by_cases hsl : sl = sl'
    · exact hsl ▸ ⟨htarget, hread⟩
    · exact absurd (State.setSlot_slot_ne s sl' sl x hsl) hne
  all_goals
    cases he.symm.trans h
    simp at hne

/-- Settles O25: where the slot did change, the command names it; CLEAR, INIT and DECODE write every
field, and what each other command leaves in its slot has the other fields of the slot before. -/
theorem eachFieldHasItsWriters : Obligations.EachFieldHasItsWriters := by
  intro i s t sl h fresh
  have himg (hne : t.imgOut ≠ s.imgOut) : ∃ sl', i = .encode sl' :=
    not_forall_not.1 fun hi => hne (exec_imgOut h hi)
  by_cases hslot : t.slot sl = s.slot sl
  · simpa [hslot] using himg
  obtain ⟨htarget, hread⟩ := exec_changes_slot h hslot
  cases i with
  | eq => cases hread
  | getfmt sl | getid sl | getdlc sl | getsize sl | getb sl pos | geth sl pos e | getw sl pos e
  | getrtr sl | getbrs sl | getesi sl | getfdf sl | getmrk sl | getusr sl => cases hread
  | encode sl =>
    cases h
    exact absurd (State.respondImage_slot ..) hslot
  | clear sl | init sl f | decode sl =>
    cases htarget
    have hfresh : fresh := by simp [fresh]
    simpa [hfresh] using himg
  | setfmt sl f | setid sl | setdlc sl | setsize sl | setb sl pos
  | seth sl pos e | setw sl pos e | setrtr sl v | setbrs sl v | setesi sl v | setmrk sl | setusr sl =>
    cases htarget
    cases h
    simp

end Sys2Proof.Machine

namespace Sys2Proof.Machine

/-! ## The DLC table and its inverse (43_length.md R166, R167) -/

/-- The length of the classic inverse is the clamp at 8. -/
theorem dlcToLen_lenToDlc_classic {f : Format} (n : Nat) (h : isFD f = false) :
    dlcToLen f (lenToDlc f n) = min n 8 := by
  have hd := lenToDlc_classic f n h
  rw [dlcToLen_small f _ (by omega), hd]

/-- The length of the FD inverse is the next entry of the FD row. -/
theorem dlcToLen_lenToDlc_fd {f : Format} (n : Nat) (h : isFD f = true) :
    dlcToLen f (lenToDlc f n) = if n ≤ 8 then n else if n ≤ 12 then 12 else if n ≤ 16 then 16
      else if n ≤ 20 then 20 else if n ≤ 24 then 24 else if n ≤ 32 then 32
      else if n ≤ 48 then 48 else 64 := by
  by_cases hn : n ≤ 8
  · have hd := lenToDlc_fd_small f n h hn
    rw [dlcToLen_small f _ (by omega), hd, if_pos hn]
  · rw [lenToDlc_fd f n h, if_neg hn, if_neg hn]
    simp only [apply_ite (dlcToLen f), dlcToLen_fd f _ h]
    rfl

/-- The length of the inverse is at least the byte count, up to the family's maximum. -/
theorem min_le_dlcToLen_lenToDlc (f : Format) (n : Nat) :
    min n (lenMax f) ≤ dlcToLen f (lenToDlc f n) := by
  rw [lenMax_eq]
  cases h : isFD f with
  | false => rw [dlcToLen_lenToDlc_classic n h]; simp
  | true =>
    rw [dlcToLen_lenToDlc_fd n h]
    split_ifs <;> omega

/-- The length of the inverse is at most every length of the family that is at least the byte count. -/
theorem dlcToLen_lenToDlc_le {f : Format} {n : Nat} {d : BitVec 4} (hd : d.toNat ≤ dlcMax f)
    (hn : min n (lenMax f) ≤ dlcToLen f d) : dlcToLen f (lenToDlc f n) ≤ dlcToLen f d := by
  rw [lenMax_eq] at hn
  cases h : isFD f with
  | false =>
    rw [dlcToLen_lenToDlc_classic n h]
    simpa [h] using hn
  | true =>
    have hmem := dlcToLen_mem_lengthRow hd
    rw [dlcToLen_lenToDlc_fd n h]
    simp only [lengthRow, h, if_true, List.mem_cons, List.not_mem_nil, or_false] at hmem hn
    split_ifs <;> omega

/-- SETSIZE answers, and the size is then that of the inverse table. -/
theorem exec_setsize_size (sl : SlotId) (s : State) : ∃ t, exec (.setsize sl) s = .next t ∧
    (t.slot sl).size =
      dlcToLen (s.slot sl).fmt (lenToDlc (s.slot sl).fmt s.ports.arg0.toNat) := by
  obtain ⟨t, hexec, -, hslot⟩ := update_writesSlot s sl
    ((s.slot sl).setDlc (lenToDlc (s.slot sl).fmt s.ports.arg0.toNat))
  exact ⟨t, hexec, congrArg Slot.size hslot⟩

/-- Settles O34: `lenToDlc` gives the smallest length that is large enough. -/
theorem setSizeSnapsUpward : Obligations.SetSizeSnapsUpward := by
  intro sl s
  obtain ⟨t, hexec, hsize⟩ := exec_setsize_size sl s
  refine ⟨t, hexec, ?_⟩
  simp only [hsize, ← lenMax_eq, ← dlcMax_eq]
  exact ⟨min_le_dlcToLen_lenToDlc .., fun d => dlcToLen_lenToDlc_le⟩

/-- The inverse of the length of a DLC of the family is the DLC. -/
theorem lenToDlc_dlcToLen {f : Format} {d : BitVec 4} (h : d.toNat ≤ dlcMax f) :
    lenToDlc f (dlcToLen f d) = d := by
  revert d
  cases f <;> decide

/-- The DLC that SETDLC stores comes back from the size it gives. -/
theorem lenToDlc_dlcToLen_clampDlc (f : Format) (x : Word) :
    lenToDlc f (dlcToLen f (clampDlc f x)) = clampDlc f x :=
  lenToDlc_dlcToLen (by rw [clampDlc_toNat]; omega)

theorem State.withPorts_slot (s : State) (p : Request) (sl : SlotId) :
    ({ s with ports := p } : State).slot sl = s.slot sl := by cases sl <;> rfl

/-- SETSIZE of the size that a slot has stores the inverse of its length. -/
theorem exec_setsize_of_size (sl : SlotId) (s : State) {p : Request}
    (h : p.arg0 = BitVec.ofNat 32 (s.slot sl).size) :
    ∃ t, exec (.setsize sl) { s with ports := p } = .next t ∧
      (t.slot sl).dlc = lenToDlc (s.slot sl).fmt (dlcToLen (s.slot sl).fmt (s.slot sl).dlc) := by
  obtain ⟨t, hexec, -, hdlc⟩ := update_setDlc_writesSlot { s with ports := p } sl
    (lenToDlc (({ s with ports := p } : State).slot sl).fmt p.arg0.toNat)
  rw [h, Slot.size_word_toNat, State.withPorts_slot] at hdlc
  exact ⟨t, hexec, hdlc⟩

/-- Settles O37: the two laws of the table; GETSIZE returns the size whole and keeps the slot, and
SETSIZE stores the inverse of it. -/
theorem dlcAndLengthRoundTrip : Obligations.DlcAndLengthRoundTrip := by
  refine ⟨fun f d => ?first, min_le_dlcToLen_lenToDlc, fun sl s => ?commands⟩
  case first =>
    have hmax := dlcMax_le f
    have hd : (BitVec.ofNat 4 (min d (dlcMax f))).toNat = min d (dlcMax f) := by
      rw [BitVec.toNat_ofNat]
      exact Nat.mod_eq_of_lt (by omega)
    rw [lenToDlc_dlcToLen (by omega), hd]
  case commands =>
    obtain ⟨t, hset, -, hslot⟩ := update_writesSlot s sl
      ((s.slot sl).setDlc (clampDlc (s.slot sl).fmt s.arg0))
    obtain ⟨v, hsetsize, hdlc⟩ := exec_setsize_of_size sl
      (t.respond .ok (BitVec.ofNat 32 (t.slot sl).size))
      (p := { t.ports with arg0 := BitVec.ofNat 32 (t.slot sl).size })
      (by rw [State.respond_slot])
    refine ⟨t, _, v, hset, rfl, hsetsize, hdlc.trans ?_⟩
    rw [State.respond_slot, hslot]
    exact lenToDlc_dlcToLen_clampDlc ..

/-! ## Reading back a word (44_payload.md R185, 20_memory.md R54) -/

/-- The byte that SETW left at an offset. -/
theorem Slot.memWrite_four_read {s : Slot} {pos k : Nat} (h : pos + 4 ≤ s.size) (hk : k < 4)
    (v : Word) (e : Endian) :
    (s.memWrite pos 4 v e).p.read (pos + k) = byteOf v (if e = .big then 3 - k else k) := by
  rw [Slot.memWrite_read_byteOf, if_pos (by omega), Nat.add_sub_cancel_left]

/-- A word read back in the order of the write is the value, and byte-reversed in the other order. -/
theorem Slot.memRead_memWrite_four {s : Slot} {pos : Nat} (h : pos + 4 ≤ s.size) (v : Word)
    (e e' : Endian) : (s.memWrite pos 4 v e).memRead pos 4 e' =
      if e = e' then v else byteOf v 0 ++ byteOf v 1 ++ byteOf v 2 ++ byteOf v 3 := by
  have hsize : pos + 4 ≤ (s.memWrite pos 4 v e).size := by rwa [Slot.memWrite_size]
  have hread (k : Nat) (hk : k < 4) := Slot.memWrite_four_read h hk v e
  have hread0 : (s.memWrite pos 4 v e).p.read pos = byteOf v (if e = .big then 3 else 0) :=
    hread 0 (by decide)
  cases e' with
  | big =>
    rw [Slot.memRead_four_big hsize, hread0, hread 1 (by decide), hread 2 (by decide),
      hread 3 (by decide)]
    cases e with
    | big => exact byteOf_append v
    | little => rfl
  | little =>
    rw [Slot.memRead_four_little hsize, hread0, hread 1 (by decide), hread 2 (by decide),
      hread 3 (by decide)]
    cases e with
    | big => rfl
    | little => exact byteOf_append v

/-- Settles O45: SETW is one `update` with a four-byte `MemWrite`, GETW one `answer` with a four-byte
`MemRead` of what it left. -/
theorem setWordReadsBack : Obligations.SetWordReadsBack := by
  intro sl pos e e' s h
  obtain ⟨t, hset, -, hslot⟩ := update_writesSlot s sl ((s.slot sl).memWrite pos 4 s.ports.arg0 e)
  refine ⟨t, _, hset, rfl, ?_⟩
  rw [State.respond_res, hslot]
  exact Slot.memRead_memWrite_four h ..

/-- Settles O46: GETB and GETH are one `answer` with a `MemRead` of what SETW left. -/
theorem mixedWidthAccessSeesTheBytes : Obligations.MixedWidthAccessSeesTheBytes := by
  intro sl pos k e e' s h byteAt
  obtain ⟨t, hset, -, hslot⟩ := update_writesSlot s sl ((s.slot sl).memWrite pos 4 s.ports.arg0 e)
  have hsize : (t.slot sl).size = (s.slot sl).size := by rw [hslot, Slot.memWrite_size]
  have hbyte (j : Nat) (hj : j < 4) : (t.slot sl).p.read (pos + j) = byteAt j := by
    rw [hslot, Slot.memWrite_four_read h hj]
    exact apply_ite (byteOf s.ports.arg0) ..
  refine ⟨t, hset, fun hk => ⟨_, rfl, ?byte⟩, fun hk => ⟨_, rfl, ?half⟩⟩
  case byte => rw [State.respond_res, Slot.memRead_one (by omega), hbyte k hk]
  case half =>
    have hrange : pos + k + 2 ≤ (t.slot sl).size := by omega
    rw [State.respond_res, ← hbyte k (by omega), ← hbyte (k + 1) (by omega)]
    cases e' with
    | big => exact Slot.memRead_two_big hrange
    | little => exact Slot.memRead_two_little hrange

end Sys2Proof.Machine
